-- ==== Sys2Proof/Word.lean ====
section
/-! DEFINITION. The words of the hardware: bytes, addresses, the request header (10_state.md R11, R16;
20_memory.md R40, R41; 30_encoding.md R65). -/
namespace Sys2Proof

/-- A byte: 8 bits, the unit every address names (20_memory.md R40, R41; 90_conflicts.md C1). -/
abbrev Byte := BitVec 8

/-- An address: 16 bits, unsigned; every value is a valid address (20_memory.md R40). -/
abbrev Addr := BitVec 16

/-- A request header: the 40-bit word OP ADDR LEN (30_encoding.md R65). -/
abbrev Header := BitVec 40

end Sys2Proof
end

