-- ==== Sys2Proof/Config.lean ====
section
/-! DEFINITION. What is fixed when the block is built: geometry, replacement policy, and what a failing LOADB leaves
(00_scope.md R4, R8; 92_eei_decisions.md D4, D13). The quantities derived from it are in Machine/Geometry.lean. -/
namespace Sys2Proof

/-- The two replacement policies the spec defines (00_scope.md R8; 43_replacement.md R113 to R117).
DESIGN CHOICE (log 12), unsafe only for claims about a policy other than these two. -/
inductive Policy where
  /-- the source's "round-robin-per-set" (43_replacement.md R113) -/
  | fifo
  /-- the source's "least-recently-used" (43_replacement.md R115) -/
  | lru
  deriving DecidableEq, Repr

/-- The parameters of 00_scope.md R4. `AddressWidth` is not one of them: the source fixes it at 16. -/
structure Config where
  /-- low address bits that select a byte in a block -/
  offsetBits : Nat
  /-- middle address bits that select a set -/
  indexBits : Nat
  /-- high address bits stored as the tag -/
  tagBits : Nat
  /-- ways per set -/
  associativity : Nat
  /-- total data capacity -/
  cacheSizeBytes : Nat
  /-- replacement policy -/
  policy : Policy
  /-- what a failing LOADB leaves written (45_host_api.md R131) -/
  loadPartial : Bool
  deriving DecidableEq, Repr

/-- The reference geometry (00_scope.md R7) with the default Policy and LoadPartial of 92_eei_decisions.md's table
of open parameters. DESIGN CHOICE (log 2): the configuration `State.reset` is built with. -/
def Config.reference : Config where
  offsetBits := 6
  indexBits := 4
  tagBits := 6
  associativity := 4
  cacheSizeBytes := 4096
  policy := .fifo
  loadPartial := false

end Sys2Proof
end

