-- ==== Sys2Proof/Syntax.lean ====
section
/-! DEFINITION. The six requests: one constructor per row of spec/opcode_table.json (30_encoding.md R63, R66). -/
namespace Sys2Proof

/-- A request, with its operands. LOADB's `LEN` is the length of `bytes` (30_encoding.md R67: "the requirement it
must keep is `LEN == len(bytes)`"). There are no pseudo-operations and no further forms (30_encoding.md R73). -/
inductive Instr where
  /-- `RESET`, the source's `Reset()` (44_reset_op.md R125) -/
  | reset
  /-- `LOADB addr, bytes`, the source's `LoadBytes(startAddress, bytes[])` (45_host_api.md R130) -/
  | loadb (addr : Addr) (bytes : List Byte)
  /-- `READB addr`, the source's `ReadByte(address)` (45_host_api.md R133) -/
  | readb (addr : Addr)
  /-- `ISHIT addr`, the source's `IsHit(address)` (41_lookup.md R95) -/
  | ishit (addr : Addr)
  /-- `LOOKUP addr`, the source's `CacheController.Lookup(address)` (41_lookup.md R94) -/
  | lookup (addr : Addr)
  /-- `FILL addr`, the source's `CacheController.Fill(address)` (42_fill.md R102) -/
  | fill (addr : Addr)
  deriving DecidableEq, Repr

end Sys2Proof
end

