-- ==== Sys2Proof/WellFormed.lean ====
section
/-! DEFINITION. The one check a request needs: LOADB's length fits the header's 20-bit `LEN` (30_encoding.md R65). -/
namespace Sys2Proof

/-- How many values `LEN` has: 20 bits, 0 to 1048575 (30_encoding.md R65). -/
abbrev lenLimit : Nat := 1048576

/-- A request that has a spelling. Every operand of the other five is well-formed by its type: "any value is legal"
(41_lookup.md R94, R95; 42_fill.md R102; 45_host_api.md R133). A LOADB that fails the range check is well-formed
(30_encoding.md R67). -/
def Instr.wf : Instr → Bool
  | .reset => true
  | .loadb _ bytes => decide (bytes.length < lenLimit)
  | .readb _ => true
  | .ishit _ => true
  | .lookup _ => true
  | .fill _ => true

end Sys2Proof
end

