-- ==== Sys2Proof/Decode.lean ====
section
/-! DEFINITION. The request decoder, total on any bytes and rejecting by name, and the encoder (30_encoding.md R65 to
R68). A request travels as one byte string: the header word, most significant byte first, then LOADB's payload (R67). -/
namespace Sys2Proof

/-! ## The header's fields (30_encoding.md R65) -/

/-- `OP`, bits [39:36]. -/
def Header.op (w : Header) : BitVec 4 := w.extractLsb' 36 4

/-- `ADDR`, bits [35:20]. -/
def Header.addr (w : Header) : Addr := w.extractLsb' 20 16

/-- `LEN`, bits [19:0]. -/
def Header.len (w : Header) : BitVec 20 := w.extractLsb' 0 20

/-- A header from its three fields, `OP` highest. -/
def Header.make (op : BitVec 4) (addr : Addr) (len : BitVec 20) : Header := (op ++ addr) ++ len

/-- A header as its five bytes, most significant first (30_encoding.md R67). -/
def Header.bytes (w : Header) : List Byte :=
  [w.extractLsb' 32 8, w.extractLsb' 24 8, w.extractLsb' 16 8, w.extractLsb' 8 8, w.extractLsb' 0 8]

/-- The header that five bytes carry, most significant first. -/
def Header.ofBytes (b4 b3 b2 b1 b0 : Byte) : Header := (((b4 ++ b3) ++ b2) ++ b1) ++ b0

/-! ## Decoding -/

/-- Why a byte string spells no request (30_encoding.md R68). -/
inductive DecodeError where
  /-- fewer than the five header bytes -/
  | headerShort
  /-- `OP` is 0 or 7 to 15 -/
  | reservedOp (op : BitVec 4)
  /-- RESET with `ADDR != 0` -/
  | addrNotZero
  /-- RESET, READB, ISHIT, LOOKUP or FILL with `LEN != 0` -/
  | lenNotZero
  /-- fewer bytes after the header than the request has -/
  | payloadShort
  /-- more bytes after the header than the request has -/
  | payloadLong
  deriving DecidableEq, Repr

/-- A request without payload, from a header whose `LEN` must be zero (format A of 30_encoding.md R66). -/
def decodeAddrOnly (w : Header) (mk : Addr → Instr) : Except DecodeError Instr :=
  if w.len = 0 then .ok (mk w.addr) else .error .lenNotZero

/-- RESET's header: `ADDR` and `LEN` must both be zero (format N). -/
def decodeReset (w : Header) : Except DecodeError Instr :=
  if w.addr ≠ 0 then .error .addrNotZero
  else if w.len ≠ 0 then .error .lenNotZero
  else .ok .reset

/-- The request of a header, with the bytes of `rest` that are not its own: "the length of a request is known from its
header alone" (30_encoding.md R67). -/
def decodeWord (w : Header) (rest : List Byte) : Except DecodeError (Instr × List Byte) :=
  match w.op.toNat with
  | 1 => (decodeReset w).map (·, rest)
  | 2 =>
    if rest.length < w.len.toNat then .error .payloadShort
    else .ok (.loadb w.addr (rest.take w.len.toNat), rest.drop w.len.toNat)
  | 3 => (decodeAddrOnly w .readb).map (·, rest)
  | 4 => (decodeAddrOnly w .ishit).map (·, rest)
  | 5 => (decodeAddrOnly w .lookup).map (·, rest)
  | 6 => (decodeAddrOnly w .fill).map (·, rest)
  | _ => .error (.reservedOp w.op)

/-- The request at the front of a byte stream, with the bytes that follow it. -/
def decodePrefix : List Byte → Except DecodeError (Instr × List Byte)
  | b4 :: b3 :: b2 :: b1 :: b0 :: rest => decodeWord (Header.ofBytes b4 b3 b2 b1 b0) rest
  | _ => .error .headerShort

/-- The request a byte string spells. Bytes left over belong to no request: a payload "longer than `LEN`" spells none
(30_encoding.md R68). DEDUCED (log 5), safe: such a string is refused. -/
def decode (bytes : List Byte) : Except DecodeError Instr :=
  match decodePrefix bytes with
  | .ok (i, []) => .ok i
  | .ok (_, _ :: _) => .error .payloadLong
  | .error e => .error e

/-! ## Encoding -/

/-- `OP` of a request (30_encoding.md R66). -/
def Instr.op : Instr → BitVec 4
  | .reset => 1
  | .loadb _ _ => 2
  | .readb _ => 3
  | .ishit _ => 4
  | .lookup _ => 5
  | .fill _ => 6

/-- `ADDR` of a request; RESET has none and encodes 0 (30_encoding.md R66). -/
def Instr.addrField : Instr → Addr
  | .reset => 0
  | .loadb a _ => a
  | .readb a => a
  | .ishit a => a
  | .lookup a => a
  | .fill a => a

/-- The bytes after the header: LOADB's alone (30_encoding.md R67). -/
def Instr.payload : Instr → List Byte
  | .reset => []
  | .loadb _ bytes => bytes
  | .readb _ => []
  | .ishit _ => []
  | .lookup _ => []
  | .fill _ => []

/-- The 40-bit header word of a request: `LEN` is the payload's length. -/
def Instr.header (i : Instr) : Header :=
  Header.make i.op i.addrField (BitVec.ofNat 20 i.payload.length)

/-- The byte string of a request (30_encoding.md R67). -/
def encode (i : Instr) : List Byte := i.header.bytes ++ i.payload

/-! ## Words as the opcode table numbers them -/

/-- The byte string for a word numbered as spec/opcode_table.json numbers it: bits 39 to 0 are the header word, and
payload byte `k` is bits 47+8k to 40+8k. A LOADB carries exactly `LEN` payload bytes, zero where `w` gives no bits.
DESIGN CHOICE (log 14), safe. -/
def bytesOfTableWord (nbits w : Nat) : List Byte :=
  let v := w % 2 ^ nbits
  let h : Header := BitVec.ofNat 40 v
  let n := if h.op = 2 then h.len.toNat else 0
  h.bytes ++ (List.range n).map fun k => BitVec.ofNat 8 (v >>> (40 + 8 * k))

/-- The instruction the decoder reads from a table word; none where it refuses. -/
def decodeTableWord (nbits w : Nat) : Option Instr :=
  (decode (bytesOfTableWord nbits w)).toOption

end Sys2Proof
end

