-- ==== Sys2Proof/Machine/Geometry.lean ====
section
/-! DEFINITION. The constants derived from a configuration and the legality test (00_scope.md R5, R6). -/
namespace Sys2Proof

/-- "`AddressWidth` = 16 bits" (00_scope.md R4). -/
abbrev addressWidth : Nat := 16

/-- `AddressSpace = 2^AddressWidth = 65536` (00_scope.md R5). -/
abbrev addressSpace : Nat := 65536

/-- `BlockSize = 2^OffsetBits` bytes per line (00_scope.md R5). -/
def Config.blockSize (c : Config) : Nat := 2 ^ c.offsetBits

/-- `NumSets = 2^IndexBits` (00_scope.md R5). -/
def Config.numSets (c : Config) : Nat := 2 ^ c.indexBits

/-- A legal configuration: conditions (a), (b) and (c) of 00_scope.md R6, and nothing else (D10). -/
abbrev Config.Legal (c : Config) : Prop :=
  c.offsetBits + c.indexBits + c.tagBits = addressWidth ∧
  c.numSets * c.associativity * c.blockSize = c.cacheSizeBytes ∧
  1 ≤ c.associativity

/-- The least `n` with `m ≤ 2^n`, for `1 ≤ m`. -/
def ceilLog2 (m : Nat) : Nat := if m ≤ 1 then 0 else Nat.log2 (m - 1) + 1

/-- `WayBits = max(1, ceil(log2(Associativity)))`, the width of a response's `way` (30_encoding.md R69). -/
def Config.wayBits (c : Config) : Nat := max 1 (ceilLog2 c.associativity)

end Sys2Proof
end

