-- ==== Sys2Proof/Machine/Line.lean ====
section
/-! DEFINITION. The cache line record (10_state.md R11; 30_encoding.md R64). -/
namespace Sys2Proof.Machine

/-- "`{tag: unsigned(TagBits), valid: bool, dirty: bool, data: byte[BlockSize]}`" (10_state.md R11). The record has no
packing into a word (30_encoding.md R64). Its widths depend on the geometry: `tag` is a natural below `2^TagBits` and
`data` has `BlockSize` elements in every state of `State.Shaped` (Safety.lean; log 13). -/
structure Line where
  /-- meaningful only when `valid` (10_state.md R12) -/
  tag : Nat
  /-- 10_state.md R17 -/
  valid : Bool
  /-- 10_state.md R18: no operation writes it true -/
  dirty : Bool
  /-- byte `k` of the block is `data[k]` (20_memory.md R45) -/
  data : List Byte
  deriving DecidableEq, Repr

/-- What a line number outside the structure reads as. No run reads it: a set has exactly `Associativity` lines and the
cache exactly `NumSets` sets (10_state.md R13, R14; log 8). -/
def noLine : Line := { tag := 0, valid := false, dirty := false, data := [] }

end Sys2Proof.Machine
end

