-- ==== Sys2Proof/Machine/Memory.lean ====
section
/-! DEFINITION. The backing store: a flat array of 65536 bytes, zero after reset, held as the list of its nonzero bytes
in rising address order (10_state.md R16; 20_memory.md R40 to R43), with the two primitives `MemRead` and `MemWrite`
(00_scope.md section 5). -/
namespace Sys2Proof.Machine

/-- The bytes of the store that are not 0x00, as (address, byte), addresses strictly rising. -/
abbrev Memory := List Host.Cell

/-- What an unlisted address reads as: the store is "zero-initialized" (10_state.md R16, R27). -/
abbrev unlistedByte : Byte := 0

/-- `BS[a]`. -/
def Memory.read : Memory → Nat → Byte
  | [], _ => unlistedByte
  | (k, v) :: m, a => if k = a then v else Memory.read m a

/-- `BS[a] <- b`, in canonical form: writing 0x00 removes the entry. -/
def Memory.write : Memory → Nat → Byte → Memory
  | [], a, b => if b = unlistedByte then [] else [(a, b)]
  | (k, v) :: m, a, b =>
    if a < k then (if b = unlistedByte then (k, v) :: m else (a, b) :: (k, v) :: m)
    else if a = k then (if b = unlistedByte then m else (a, b) :: m)
    else (k, v) :: Memory.write m a b

/-- `BS[a+i] <- v[i]` for every `i`, in ascending order. -/
def Memory.writeAll : Memory → Nat → List Byte → Memory
  | m, _, [] => m
  | m, a, b :: bs => Memory.writeAll (Memory.write m a b) (a + 1) bs

/-- The canonical form: addresses inside the store, strictly rising, and no entry equal to what an unlisted address
reads as. -/
def Memory.wf : Memory → Bool
  | [] => true
  | (k, v) :: m => decide (k < addressSpace) && decide (v ≠ unlistedByte) && m.all (fun c => decide (k < c.1)) && Memory.wf m

/-- `MemRead(addr, n)`: the bytes `BS[addr] .. BS[addr+n-1]`, element `k` being `BS[addr+k]`. It "requires
`addr + n <= 65536`" (00_scope.md section 5): outside that there is no such byte, and the answer is none. It never looks
at the cache (20_memory.md R42). -/
def memRead (m : Memory) (addr n : Nat) : Option (List Byte) :=
  if addr + n ≤ addressSpace then some ((List.range n).map fun k => m.read (addr + k)) else none

/-- `MemWrite(addr, n, v)` with `n` the length of `v`: `BS[addr+k] <- v[k]`. It "requires `addr + n <= 65536`"; the
answer is none outside that. It never updates or invalidates a line (20_memory.md R42). -/
def memWrite (m : Memory) (addr : Nat) (v : List Byte) : Option Memory :=
  if addr + v.length ≤ addressSpace then some (m.writeAll addr v) else none

end Sys2Proof.Machine
end

