-- ==== Sys2Proof/Machine/ResetValues.lean ====
section
/-! DEFINITION. The reset value of every piece of state: the table of 10_state.md R27. -/
namespace Sys2Proof.Machine

/-- "zeroes every CacheLine's `valid`/`dirty`/`tag`/data" (44_reset_op.md R125). -/
def resetLine (c : Config) : Line :=
  { tag := 0, valid := false, dirty := false, data := List.replicate c.blockSize 0 }

/-- `NumSets` sets of `Associativity` reset lines. -/
def resetLines (c : Config) : List (List Line) :=
  List.replicate c.numSets (List.replicate c.associativity (resetLine c))

/-- Every byte of the store 0x00. -/
def resetStore : Memory := []

/-- `rr[s] = 0` under FIFO; under LRU there is no `rr` (10_state.md R20, R21; log 10). -/
def resetRr (c : Config) : List Nat :=
  match c.policy with
  | .fifo => List.replicate c.numSets 0
  | .lru => []

/-- `lru[s] = [0, 1, ..., Associativity-1]` under LRU; under FIFO there is no `lru` (10_state.md R20, R22; log 10). -/
def resetLru (c : Config) : List (List Nat) :=
  match c.policy with
  | .fifo => []
  | .lru => List.replicate c.numSets (List.range c.associativity)

end Sys2Proof.Machine
end

