-- ==== Sys2Proof/Machine/State.lean ====
section
/-! DEFINITION. The state of the block (10_state.md R10), its responses, the ways a step can stop, and the initial
state (70_reset_and_hazards.md R160). -/
namespace Sys2Proof.Machine

/-- `Ready` or `ConfigFault`, decided when the block is built and never changed afterwards (10_state.md R23). -/
inductive Phase where
  | ready
  | configFault
  deriving DecidableEq, Repr

/-- The status of a response; code 3 is never produced, so there are three constructors (30_encoding.md R69, R71). -/
inductive Status where
  | ok
  | configError
  | outOfRange
  deriving DecidableEq, Repr

/-- The response record (30_encoding.md R69). It has no packed bit layout. -/
structure Response where
  status : Status
  /-- the result of the `Lookup` the operation began with -/
  hit : Bool
  /-- true when the operation wrote a line -/
  filled : Bool
  /-- the way that matched, or that was filled; `WayBits` bits wide -/
  way : Nat
  /-- the byte read -/
  data : Byte
  deriving DecidableEq, Repr

/-- Why a step can stop with a fault. The spec has no fault: "It never faults" (60_exceptions.md R157). -/
inductive Fault where
  /-- Raised by FILL, READB and LOADB when `MemRead` or `MemWrite` is asked for an address that does not exist
  (00_scope.md section 5: "Requires `addr + n <= 65536`"). Safe: no run of a legal configuration reaches it
  (20_memory.md R57; log 7). -/
  | outsideStore
  deriving DecidableEq, Repr

/-- Why a step can be refused. -/
inductive Refusal where
  /-- Raised by `exec` for an instruction that has no meaning yet. Safe. No arm of this model raises it. -/
  | notModelled (mnemonic : String)
  /-- Raised by `step` when the presented bytes spell no request (30_encoding.md R68: "a model refuses it by name";
  60_exceptions.md R154; log 6). Safe. -/
  | illegalRequest (why : DecodeError)
  deriving DecidableEq, Repr

/-- The state. `lines`, `bs`, `rr`, `lru` and `phase` are the whole state of the spec (10_state.md R10); `cfg` is the
configuration, which no request changes (10_state.md R31; log 1); `pending` and `response` are the two sides of the
interface (30_encoding.md R75; log 3, log 4). -/
structure State where
  /-- the configuration the block was built with: never written -/
  cfg : Config
  phase : Phase
  /-- `lines[s][w]` is `L[s][w]`; empty in phase ConfigFault (10_state.md R23; log 9) -/
  lines : List (List Line)
  /-- the backing store `BS` -/
  bs : Memory
  /-- `rr[s]`, the next way an eviction takes, under FIFO -/
  rr : List Nat
  /-- `lru[s]`, every way once, most recently used first, under LRU -/
  lru : List (List Nat)
  /-- the requests presented and not yet taken, the next one first; each the byte string of one request -/
  pending : List (List Byte)
  /-- the answer to the last request, none before the first -/
  response : Option Response
  deriving DecidableEq, Repr

/-- A block of a legal configuration at system start: "System start is a reset" (70_reset_and_hazards.md R160; values
of 10_state.md R27). -/
def State.ready (c : Config) : State where
  cfg := c
  phase := .ready
  lines := resetLines c
  bs := resetStore
  rr := resetRr c
  lru := resetLru c
  pending := []
  response := none

/-- A block of an illegal configuration: phase ConfigFault, and "the lines, the backing store and the replacement state
do not exist" (10_state.md R23; log 9). -/
def State.faulted (c : Config) : State where
  cfg := c
  phase := .configFault
  lines := []
  bs := []
  rr := []
  lru := []
  pending := []
  response := none

/-- The block at system start, of any configuration (10_state.md R23; 70_reset_and_hazards.md R160). -/
def State.start (c : Config) : State := if c.Legal then State.ready c else State.faulted c

/-- The machine right after reset, of the reference configuration (00_scope.md R7; log 2). -/
def State.reset : State := State.start Config.reference

end Sys2Proof.Machine
end

