-- ==== Sys2Proof/Machine/Flags.lean ====
section
/-! DEFINITION. The per-line flags `valid` and `dirty` and the line's state machine (10_state.md R17 to R19), the way
comparator (41_lookup.md R90), and the status codes of a response (30_encoding.md R71). -/
namespace Sys2Proof.Machine

/-- Per-way match: "`valid == true AND stored tag == tag`", equality of all bits, never a mask test (41_lookup.md R90,
R96). -/
def lineMatches (t : Nat) (l : Line) : Bool := l.valid && l.tag == t

/-- The line a fill leaves: "Set victim line's `tag`, set `valid = true`, set `dirty = false`", with the block's bytes
as its data (42_fill.md R100; 10_state.md R17, R18). -/
def loadedLine (t : Nat) (block : List Byte) : Line :=
  { tag := t, valid := true, dirty := false, data := block }

/-- The states of a line (10_state.md R19); there is no `Valid/Dirty` (D12). -/
inductive LineState where
  | invalid
  | validClean
  deriving DecidableEq, Repr

/-- The state a line is in: `valid == false`; or `valid == true` and `dirty == false`. A dirty valid line, which no run
reaches (10_state.md R18), is in none. -/
def lineState (l : Line) : Option LineState :=
  match l.valid, l.dirty with
  | false, _ => some .invalid
  | true, false => some .validClean
  | true, true => none

/-- The two-bit code of a status (30_encoding.md R69, R71). -/
def statusCode : Status → BitVec 2
  | .ok => 0
  | .configError => 1
  | .outOfRange => 2

/-- An `OK` response with no other field set (30_encoding.md R69: "every field not listed for it is 0"). -/
def okResponse : Response := { status := .ok, hit := false, filled := false, way := 0, data := 0 }

/-- A response that reports an error: "when `status != OK` every other field is 0" (30_encoding.md R69). -/
def errorResponse (e : Status) : Response := { status := e, hit := false, filled := false, way := 0, data := 0 }

end Sys2Proof.Machine
end

