-- ==== Sys2Proof/Machine/Operands.lean ====
section
/-! DEFINITION. The one operand form of the hardware, a 16-bit address, and the address decoder: five pure functions of
the address and the geometry (40_address_decoder.md R79 to R84). All arithmetic is on unsigned naturals (R79). -/
namespace Sys2Proof.Machine

/-- `Tag(address) = address >> (IndexBits + OffsetBits)` (40_address_decoder.md R80). -/
def tagOf (c : Config) (a : Addr) : Nat := a.toNat >>> (c.indexBits + c.offsetBits)

/-- `SetIndex(address) = (address >> OffsetBits) & (NumSets - 1)` (R81). -/
def setIndex (c : Config) (a : Addr) : Nat := (a.toNat >>> c.offsetBits) &&& (c.numSets - 1)

/-- `Offset(address) = address & (BlockSize - 1)` (R82). -/
def offsetOf (c : Config) (a : Addr) : Nat := a.toNat &&& (c.blockSize - 1)

/-- `BlockStart(address) = address - Offset(address)` (R83). -/
def blockStart (c : Config) (a : Addr) : Nat := a.toNat - offsetOf c a

/-- `BlockEnd(address) = BlockStart(address) + BlockSize - 1` (R84). The addresses from `BlockStart` to `BlockEnd` are one
block: the five functions give each of them the block's tag, index and bounds, and its distance from the start as offset
(R89, stated as Obligations.SameBlockSameFields). -/
def blockEnd (c : Config) (a : Addr) : Nat := blockStart c a + c.blockSize - 1

/-- The address with a given tag, index and offset (30_encoding.md R62). With offset 0 it is the first address of the
block a line holds. -/
def reassemble (c : Config) (t i o : Nat) : Nat :=
  (t <<< (c.indexBits + c.offsetBits)) ||| (i <<< c.offsetBits) ||| o

end Sys2Proof.Machine
end

