-- ==== Sys2Proof/Machine/Ops.lean ====
section
/-! DEFINITION. The shared operations of the block: access to a line, the associative lookup, the data select, the
victim selector, `Touch`, the fill, the response, and raising an error. -/
namespace Sys2Proof.Machine

/-- What a meaning answers. -/
abbrev Result := Host.Outcome State Fault Refusal

/-! ## Reading the structure -/

/-- The ways of set `s`, in way order (10_state.md R13). -/
def setAt (st : State) (s : Nat) : List Line := st.lines.getD s []

/-- `L[s][w]`. -/
def lineAt (st : State) (s w : Nat) : Line := (setAt st s).getD w noLine

/-- `rr[s]`. -/
def rrAt (st : State) (s : Nat) : Nat := st.rr.getD s 0

/-- `lru[s]`. -/
def lruAt (st : State) (s : Nat) : List Nat := st.lru.getD s []

/-! ## Writing one component -/

/-- `L[s][w] <- l`. -/
def withLine (st : State) (s w : Nat) (l : Line) : State :=
  { st with lines := st.lines.set s ((setAt st s).set w l) }

/-- `rr[s] <- r`. -/
def withRr (st : State) (s r : Nat) : State := { st with rr := st.rr.set s r }

/-- `lru[s] <- order`. -/
def withLru (st : State) (s : Nat) (order : List Nat) : State := { st with lru := st.lru.set s order }

/-- The store replaced. -/
def withStore (st : State) (m : Memory) : State := { st with bs := m }

/-- The requests still to run replaced. -/
def withPending (st : State) (fs : List (List Byte)) : State := { st with pending := fs }

/-- The response port written. -/
def withResponse (st : State) (r : Response) : State := { st with response := some r }

/-! ## Lookup and data select -/

/-- `Lookup(address)`: the lowest way of the set the index selects that is valid and holds the tag; none is a miss.
It changes nothing (41_lookup.md R91, R92). -/
def lookup (st : State) (a : Addr) : Option Nat :=
  (setAt st (setIndex st.cfg a)).findIdx? (lineMatches (tagOf st.cfg a))

/-- The data multiplexer: `L[s][w].data[Offset(address)]` (41_lookup.md R93). -/
def byteAt (st : State) (a : Addr) (w : Nat) : Byte :=
  (lineAt st (setIndex st.cfg a) w).data.getD (offsetOf st.cfg a) 0

/-- The line handle of a hit: the pair (set, way) (30_encoding.md R70). -/
def lineHandle (st : State) (a : Addr) : Option (Nat × Nat) :=
  (lookup st a).map fun w => (setIndex st.cfg a, w)

/-! ## Replacement -/

/-- `Touch(s, w)`: under LRU `w` moves to the front of `lru[s]`; under FIFO nothing (43_replacement.md R116). -/
def touch (st : State) (s w : Nat) : State :=
  match st.cfg.policy with
  | .fifo => st
  | .lru => withLru st s (w :: (lruAt st s).filter (· ≠ w))

/-- The lowest invalid way of a set (43_replacement.md R112). -/
def firstInvalid (st : State) (s : Nat) : Option Nat := (setAt st s).findIdx? fun l => !l.valid

/-- `EvictFIFO(s)`: the way `rr[s]` points at; the pointer advances modulo `Associativity` (43_replacement.md R113). -/
def evictFifo (st : State) (s : Nat) : Nat × State :=
  (rrAt st s, withRr st s ((rrAt st s + 1) % st.cfg.associativity))

/-- `EvictLRU(s)`: the last element of `lru[s]`; the list does not change here (43_replacement.md R115). -/
def evictLru (st : State) (s : Nat) : Nat × State := ((lruAt st s).getLastD 0, st)

/-- `SelectVictim(s)`: an invalid way first, the lowest; otherwise by the policy (43_replacement.md R111). -/
def selectVictim (st : State) (s : Nat) : Nat × State :=
  match firstInvalid st s with
  | some w => (w, st)
  | none =>
    match st.cfg.policy with
    | .fifo => evictFifo st s
    | .lru => evictLru st s

/-! ## Fill -/

/-- Steps 3 and 4 of the fill into way `w`, then `Touch`: the block of `a` is read from the store and becomes the line
(42_fill.md R100, R101). None when `MemRead`'s range does not exist. -/
def loadWay (st : State) (a : Addr) (w : Nat) : Option State :=
  match memRead st.bs (blockStart st.cfg a) st.cfg.blockSize with
  | none => none
  | some block =>
    some (touch (withLine st (setIndex st.cfg a) w (loadedLine (tagOf st.cfg a) block)) (setIndex st.cfg a) w)

/-- `Fill(address)`: what it leaves, and the way filled. A resident block is reloaded in its own way and no victim is
selected (42_fill.md R101; 90_conflicts.md C3); on a miss the victim selector names the way (R100). -/
def fillBlock (st : State) (a : Addr) : Option (Nat × State) :=
  match lookup st a with
  | some w0 => (loadWay st a w0).map fun st' => (w0, st')
  | none =>
    let v := selectVictim st (setIndex st.cfg a)
    (loadWay v.2 a v.1).map fun st' => (v.1, st')

/-! ## Answering -/

/-- `respond {...}`: the request is answered (30_encoding.md R69). -/
def respond (st : State) (r : Response) : Result := .next (withResponse st r)

/-- Raising an error: "Error "entry" is the response and nothing more" (60_exceptions.md R148). No state is saved, no
mode changes, no control goes anywhere, and there is no return (R149): the next request runs normally (R144). -/
def raise (st : State) (e : Status) : Result := respond st (errorResponse e)

/-- A request in phase `Ready` runs; in phase `ConfigFault` every request, of all six kinds, is answered
`CONFIG_ERROR` and changes nothing (60_exceptions.md R142, R147). -/
def whenReady (st : State) (run : Result) : Result :=
  match st.phase with
  | .ready => run
  | .configFault => raise st .configError

/-! ## The interface -/

/-- The request the requester presents next, and the state once the block has taken it (30_encoding.md R75). -/
def takeRequest (st : State) : Option (List Byte × State) :=
  match st.pending with
  | [] => none
  | f :: fs => some (f, withPending st fs)

/-- The requester presents `f` as the next request to run. -/
def presentNext (st : State) (f : List Byte) : State := withPending st (f :: st.pending)

end Sys2Proof.Machine
end

