-- ==== Sys2Proof/Machine/Data.lean ====
section
/-! DEFINITION. The requests that move data: LOADB, READB and FILL (45_host_api.md R130 to R133; 42_fill.md R102). -/
namespace Sys2Proof.Machine

/-- `MemWrite` of LOADB's bytes from `addr`, then the response `r`. -/
def storeBytes (s : State) (addr : Nat) (bytes : List Byte) (r : Response) : Result :=
  match memWrite s.bs addr bytes with
  | some m => respond (withStore s m) r
  | none => .fault .outsideStore

/-- LOADB: the bytes go to the store behind the cache's back (45_host_api.md R130, R132). The range check is on naturals
and comes first; a failing LOADB writes nothing, or under `LoadPartial` the in-range prefix, and then raises the error
(R131). -/
def execLoadb (a : Addr) (bytes : List Byte) (s : State) : Result :=
  whenReady s <|
    if a.toNat + bytes.length > addressSpace then
      if s.cfg.loadPartial then
        storeBytes s a.toNat (bytes.take (addressSpace - a.toNat)) (errorResponse .outOfRange)
      else raise s .outOfRange
    else storeBytes s a.toNat bytes okResponse

/-- READB: on a hit the byte of the cached block, and the use is recorded; on a miss the block is filled first
(45_host_api.md R133, R135). -/
def execReadb (a : Addr) (s : State) : Result :=
  whenReady s <|
    match lookup s a with
    | some w =>
      let t := touch s (setIndex s.cfg a) w
      respond t { status := .ok, hit := true, filled := false, way := w, data := byteAt t a w }
    | none =>
      match fillBlock s a with
      | some (w, t) => respond t { status := .ok, hit := false, filled := true, way := w, data := byteAt t a w }
      | none => .fault .outsideStore

/-- FILL: `hit` tells whether the block was resident; the line is loaded from the present store either way
(42_fill.md R102). -/
def execFill (a : Addr) (s : State) : Result :=
  whenReady s <|
    match fillBlock s a with
    | some (w, t) => respond t { status := .ok, hit := (lookup s a).isSome, filled := true, way := w, data := 0 }
    | none => .fault .outsideStore

end Sys2Proof.Machine
end

