-- ==== Sys2Proof/Machine/Query.lean ====
section
/-! DEFINITION. The two requests that only look: LOOKUP and ISHIT (41_lookup.md R94, R95). -/
namespace Sys2Proof.Machine

/-- LOOKUP: hit or miss, and the matching way on a hit (41_lookup.md R94). On a miss `way` is 0, a filler
(30_encoding.md R70). -/
def execLookup (a : Addr) (s : State) : Result :=
  whenReady s <|
    match lookup s a with
    | some w => respond s { status := .ok, hit := true, filled := false, way := w, data := 0 }
    | none => respond s okResponse

/-- ISHIT: "query-only, for diagnostics/tests; never mutates state" (41_lookup.md R95). -/
def execIshit (a : Addr) (s : State) : Result :=
  whenReady s <| respond s { status := .ok, hit := (lookup s a).isSome, filled := false, way := 0, data := 0 }

end Sys2Proof.Machine
end

