-- ==== Sys2Proof/Machine/System.lean ====
section
/-! DEFINITION. The one system request: RESET (44_reset_op.md R125 to R128). -/
namespace Sys2Proof.Machine

/-- Every line, every byte of the store and the replacement state at the values of 10_state.md R27; the configuration,
the phase and the interface are not touched. -/
def resetAll (s : State) : State :=
  { s with
    lines := resetLines s.cfg
    bs := resetStore
    rr := resetRr s.cfg
    lru := resetLru s.cfg }

/-- RESET: "if the configuration is illegal then raise ConfigurationError()"; otherwise the whole structure is reset
(44_reset_op.md R125, R126; log 11). -/
def execReset (s : State) : Result :=
  whenReady s <|
    if s.cfg.Legal then respond (resetAll s) okResponse else raise s .configError

end Sys2Proof.Machine
end

