-- ==== Sys2Proof/Machine/Dispatch.lean ====
section
/-! DEFINITION. The meaning of every request, one arm per constructor of `Instr`. -/
namespace Sys2Proof.Machine

def exec (i : Instr) (s : State) : Host.Outcome State Fault Refusal :=
  match i with
  | .reset => Sys2Proof.Machine.execReset s
  | .loadb a bytes => Sys2Proof.Machine.execLoadb a bytes s
  | .readb a => Sys2Proof.Machine.execReadb a s
  | .ishit a => Sys2Proof.Machine.execIshit a s
  | .lookup a => Sys2Proof.Machine.execLookup a s
  | .fill a => Sys2Proof.Machine.execFill a s

end Sys2Proof.Machine
end

