-- ==== Sys2Proof/Machine/Step.lean ====
section
/-! DEFINITION. One step: the block takes the request presented next and runs it to completion (20_memory.md R48, R49;
30_encoding.md R75). -/
namespace Sys2Proof.Machine

/-- With no request presented the block is idle and nothing changes (60_exceptions.md R156; log 3). Bytes that spell no
request are refused by name (30_encoding.md R68; log 6). -/
def step (s : State) : Host.Outcome State Fault Refusal :=
  match takeRequest s with
  | none => .next s
  | some (f, t) =>
    match decode f with
    | .ok i => exec i t
    | .error e => .refused (.illegalRequest e)

/-- `s` with the request of a table word presented as the next one to run (log 14). -/
def State.withFetchWord (s : State) (nbits w : Nat) : State := presentNext s (bytesOfTableWord nbits w)

end Sys2Proof.Machine
end

