-- ==== Sys2Proof/Safety.lean ====
section
/-! DEFINITION. The terms the statements use: the shape of a state, the invariants of the spec, residence, the victim of
a fill, what a fill leaves, and runs of request lists. -/
namespace Sys2Proof.Machine

/-! ## The shape of a state (10_state.md R11 to R16, R20 to R23) -/

/-- A block of a legal configuration: `NumSets` sets of `Associativity` lines (R13, R14), tags of `TagBits` bits and
`BlockSize` bytes of data (R11), the store in canonical form (R16), and the replacement state of the configured policy
only (R20 to R22). -/
structure State.Shaped (s : State) : Prop where
  legal : s.cfg.Legal
  phase : s.phase = .ready
  sets : s.lines.length = s.cfg.numSets
  ways : ∀ ls ∈ s.lines, ls.length = s.cfg.associativity
  tags : ∀ ls ∈ s.lines, ∀ l ∈ ls, l.tag < 2 ^ s.cfg.tagBits
  data : ∀ ls ∈ s.lines, ∀ l ∈ ls, l.data.length = s.cfg.blockSize
  store : s.bs.wf = true
  rrFifo : s.cfg.policy = .fifo → s.rr.length = s.cfg.numSets ∧ ∀ r ∈ s.rr, r < s.cfg.associativity
  lruFifo : s.cfg.policy = .fifo → s.lru = []
  lruLru : s.cfg.policy = .lru → s.lru.length = s.cfg.numSets ∧ ∀ o ∈ s.lru, o.Perm (List.range s.cfg.associativity)
  rrLru : s.cfg.policy = .lru → s.rr = []

/-- A block of an illegal configuration: "the lines, the backing store and the replacement state do not exist" (R23). -/
structure State.Absent (s : State) : Prop where
  illegal : ¬ s.cfg.Legal
  phase : s.phase = .configFault
  lines : s.lines = []
  bs : s.bs = []
  rr : s.rr = []
  lru : s.lru = []

/-! ## The invariants the spec names -/

/-- UNIQ: no set holds two valid lines with one tag (10_state.md R15). -/
abbrev State.Uniq (s : State) : Prop :=
  ∀ x < s.cfg.numSets, ∀ w₁ < s.cfg.associativity, ∀ w₂ < s.cfg.associativity, w₁ ≠ w₂ →
    ¬ ((lineAt s x w₁).valid = true ∧ (lineAt s x w₂).valid = true ∧ (lineAt s x w₁).tag = (lineAt s x w₂).tag)

/-- CLEAN: no line is dirty (10_state.md R18). -/
abbrev State.Clean (s : State) : Prop :=
  ∀ x < s.cfg.numSets, ∀ w < s.cfg.associativity, (lineAt s x w).dirty = false

/-- PREFIX: the valid ways of every set are `0..k-1` for some `k` (10_state.md R28). -/
abbrev State.WaysPrefix (s : State) : Prop :=
  ∀ x < s.cfg.numSets, ∃ k ≤ s.cfg.associativity, ∀ w < s.cfg.associativity, (lineAt s x w).valid = decide (w < k)

/-- ZERO-INVALID: an invalid line is the reset line (10_state.md R30). -/
abbrev State.InvalidZero (s : State) : Prop :=
  ∀ x < s.cfg.numSets, ∀ w < s.cfg.associativity, (lineAt s x w).valid = false → lineAt s x w = resetLine s.cfg

/-- The invariant of the machine: of a Ready block its shape, UNIQ, CLEAN, PREFIX and ZERO-INVALID; of a block in
ConfigFault that it has nothing. -/
def State.Inv (s : State) : Prop :=
  (s.Shaped ∧ s.Uniq ∧ s.Clean ∧ s.WaysPrefix ∧ s.InvalidZero) ∨ s.Absent

/-! ## Residence -/

/-- Way `w` of the set of `a` is the lowest that matches `a` (41_lookup.md R90, R91). -/
abbrev FirstMatch (s : State) (a : Addr) (w : Nat) : Prop :=
  w < s.cfg.associativity ∧
  ((lineAt s (setIndex s.cfg a) w).valid = true ∧ (lineAt s (setIndex s.cfg a) w).tag = tagOf s.cfg a) ∧
  ∀ v < w, ¬ ((lineAt s (setIndex s.cfg a) v).valid = true ∧ (lineAt s (setIndex s.cfg a) v).tag = tagOf s.cfg a)

/-- The block of `a` is resident: some way of its set is valid and holds its tag (00_scope.md glossary; 41_lookup.md
R90). -/
abbrev Resident (s : State) (a : Addr) : Prop :=
  ∃ w < s.cfg.associativity,
    (lineAt s (setIndex s.cfg a) w).valid = true ∧ (lineAt s (setIndex s.cfg a) w).tag = tagOf s.cfg a

/-- Every way of set `x` is valid. -/
abbrev SetFull (s : State) (x : Nat) : Prop := ∀ w < s.cfg.associativity, (lineAt s x w).valid = true

/-- `w` is the way `SelectVictim(x)` returns: the lowest invalid way; with none, `rr[x]` under FIFO and the last of
`lru[x]` under LRU (43_replacement.md R111 to R115). -/
abbrev IsVictim (s : State) (x w : Nat) : Prop :=
  (w < s.cfg.associativity ∧ (lineAt s x w).valid = false ∧ ∀ v < w, (lineAt s x v).valid = true) ∨
  (SetFull s x ∧ s.cfg.policy = .fifo ∧ w = rrAt s x) ∨
  (SetFull s x ∧ s.cfg.policy = .lru ∧ (lruAt s x).getLast? = some w)

/-- Line `(x, w)` holds the block of `a` as the store of `s` has it now: "`data[k] = BS[BlockStart + k]`", the tag, valid
and not dirty (42_fill.md R100). -/
abbrev HoldsBlock (s t : State) (a : Addr) (w : Nat) : Prop :=
  (lineAt t (setIndex s.cfg a) w).tag = tagOf s.cfg a ∧
  (lineAt t (setIndex s.cfg a) w).valid = true ∧
  (lineAt t (setIndex s.cfg a) w).dirty = false ∧
  (lineAt t (setIndex s.cfg a) w).data.length = s.cfg.blockSize ∧
  ∀ k < s.cfg.blockSize, (lineAt t (setIndex s.cfg a) w).data.getD k 0 = s.bs.read (blockStart s.cfg a + k)

/-- `t` has the lines of `s` but for line `(x, w)`, and as many of them. -/
def OtherLinesSame (s t : State) (x w : Nat) : Prop :=
  t.lines.length = s.lines.length ∧
  (∀ y, (setAt t y).length = (setAt s y).length) ∧
  ∀ y v, (y, v) ≠ (x, w) → lineAt t y v = lineAt s y v

/-- `t` has the configuration, phase, store and pending requests of `s`. -/
abbrev SameSurroundings (s t : State) : Prop :=
  t.cfg = s.cfg ∧ t.phase = s.phase ∧ t.bs = s.bs ∧ t.pending = s.pending

/-- `w` at the front, the relative order of the others kept (43_replacement.md R116). -/
def movedToFront (w : Nat) (order : List Nat) : List Nat := w :: order.filter (· ≠ w)

/-- Way `w` of set `x` has been recorded as used, and no other set: under LRU; under FIFO there is nothing to record
(43_replacement.md R116, R117). -/
def TouchedOnly (s t : State) (x w : Nat) : Prop :=
  match s.cfg.policy with
  | .fifo => t.lru = s.lru
  | .lru => t.lru = s.lru.set x (movedToFront w (lruAt s x))

/-- `rr[x]` advanced by one modulo `Associativity` when a full set evicts by FIFO; every pointer unmoved otherwise
(43_replacement.md R113, R114). -/
abbrev PointerAfterMiss (s t : State) (x : Nat) : Prop :=
  t.rr = if SetFull s x ∧ s.cfg.policy = .fifo then s.rr.set x ((rrAt s x + 1) % s.cfg.associativity) else s.rr

/-- The block of `a` has been loaded into way `w` of its set: that line holds it, every other line, the store, the
configuration, the phase and the requests still to run are as before, and the use of `w` is recorded (42_fill.md R100,
R101, R105). -/
structure LoadedInto (s t : State) (a : Addr) (w : Nat) : Prop where
  holds : HoldsBlock s t a w
  others : OtherLinesSame s t (setIndex s.cfg a) w
  surroundings : SameSurroundings s t
  touched : TouchedOnly s t (setIndex s.cfg a) w

/-! ## Coherence of a line with the store (10_state.md R29; 45_host_api.md R134) -/

/-- Line `(x, w)` holds the bytes memory `m` has at the block the line's tag and set name. -/
abbrev LineIsCopyOf (s : State) (x w : Nat) (m : Memory) : Prop :=
  ∀ k < s.cfg.blockSize, (lineAt s x w).data.getD k 0 = m.read (reassemble s.cfg (lineAt s x w).tag x 0 + k)

/-- Every valid line agrees with the present store. -/
abbrev State.Coherent (s : State) : Prop :=
  ∀ x < s.cfg.numSets, ∀ w < s.cfg.associativity, (lineAt s x w).valid = true → LineIsCopyOf s x w s.bs

/-- The request writes no byte of a resident block: it is no LOADB, or one whose addresses are all of blocks that are
not resident (70_reset_and_hazards.md R164). -/
def AvoidsResident (s : State) : Instr → Prop
  | .reset => True
  | .loadb a bytes => ∀ b : Addr, a.toNat ≤ b.toNat → b.toNat < a.toNat + bytes.length → ¬ Resident s b
  | .readb _ => True
  | .ishit _ => True
  | .lookup _ => True
  | .fill _ => True

/-- For every line, the store as it was when the line was last filled: not state of the block, but of an observer that
watches it. -/
abbrev Snapshots := Nat → Nat → Option Memory

/-- What the observer knows after request `i` has led to `t`: a fill of a line takes a snapshot, RESET forgets all. -/
def Snapshots.after (g : Snapshots) (i : Instr) (t : State) : Snapshots :=
  match i, t.response with
  | .reset, _ => fun _ _ => none
  | _, none => g
  | i, some r =>
    if r.filled then fun x w => if x = setIndex t.cfg i.addrField ∧ w = r.way then some t.bs else g x w else g

/-- SNAPSHOT: every valid line holds the bytes the store had when the line was last filled (10_state.md R29). -/
def State.SnapshotOf (s : State) (g : Snapshots) : Prop :=
  ∀ x < s.cfg.numSets, ∀ w < s.cfg.associativity, (lineAt s x w).valid = true →
    ∃ m, g x w = some m ∧ LineIsCopyOf s x w m

/-! ## What an observer of the replacement sees (43_replacement.md R114, R116) -/

/-- For every set, an ordering of ways that an observer keeps: not state of the block. -/
abbrev WayOrders := Nat → List Nat

/-- In order of installation, oldest first: a fill that missed puts its way last, RESET forgets all. A reload of a
resident block installs nothing (42_fill.md R101). -/
def WayOrders.afterInstall (g : WayOrders) (i : Instr) (t : State) : WayOrders :=
  match i, t.response with
  | .reset, _ => fun _ => []
  | _, none => g
  | i, some r =>
    if r.filled && !r.hit then
      fun x => if x = setIndex t.cfg i.addrField then (g x).filter (· ≠ r.way) ++ [r.way] else g x
    else g

/-- In order of use, most recent first: a fill or a READB puts its way first (43_replacement.md R117), RESET forgets
all. -/
def WayOrders.afterUse (g : WayOrders) (i : Instr) (t : State) : WayOrders :=
  match i, t.response with
  | .reset, _ => fun _ => []
  | .readb a, some r => fun x => if x = setIndex t.cfg a then movedToFront r.way (g x) else g x
  | .fill a, some r => fun x => if x = setIndex t.cfg a then movedToFront r.way (g x) else g x
  | _, _ => g

/-- The FIFO pointer agrees with the order of installation: the valid ways of a set, taken from the pointer on, are in
that order, and the pointer of a set that is not full is 0. -/
def State.FifoOrdered (s : State) (g : WayOrders) : Prop :=
  ∀ x < s.cfg.numSets,
    g x = ((List.range s.cfg.associativity).filter fun w => (lineAt s x w).valid).rotate (rrAt s x) ∧
    (¬ SetFull s x → rrAt s x = 0)

/-- The recency list agrees with the order of use: the used ways in that order, then the ways not used since reset. -/
def State.LruOrdered (s : State) (g : WayOrders) : Prop :=
  ∀ x < s.cfg.numSets,
    lruAt s x = g x ++ (List.range s.cfg.associativity).filter (fun w => w ∉ g x) ∧
    ∀ w < s.cfg.associativity, (lineAt s x w).valid = true → w ∈ g x

/-! ## Runs (70_reset_and_hazards.md R171) -/

/-- A list of requests, first to last: the responses and the final state, if every request completes. -/
def runRequests : List Instr → State → Option (List (Option Response) × State)
  | [], s => some ([], s)
  | i :: is, s =>
    match exec i s with
    | .next t => (runRequests is t).map fun p => (t.response :: p.1, p.2)
    | .fault _ => none
    | .refused _ => none

/-- The same requests presented to the machine as byte strings, to be taken by `step`. -/
def presentAll (s : State) (is : List Instr) : State := withPending s (is.map encode)

end Sys2Proof.Machine
end

