-- ==== Sys2Proof/Certificates/Slice0/Obligations.lean ====
section
/-! DEFINITION. The statements about the model. Rules R<n> are those of spec/; "log n" is notes/assumptions/n.md. -/

open Sys2Proof Sys2Proof.Machine

/-! ## Encoding (30_encoding.md) -/

/-- Decode and encode agree: the bytes of every well-formed request, with every operand at every value, decode to it; at
the front of a stream the bytes that follow are left over (30_encoding.md section 3, R67). -/
def Obligations.DecodeOfEncode : Prop :=
  ∀ i : Instr, i.wf = true →
    decode (encode i) = .ok i ∧ ∀ rest, decodePrefix (encode i ++ rest) = .ok (i, rest)

/-- Every byte string that decodes is the encoding of the request it decodes to, which is well-formed: a request has one
spelling. That a string with bytes left over after RESET, READB, ISHIT, LOOKUP or FILL, or one shorter than five bytes,
spells no request is the model's deduction (log 5, DEDUCED) from the length of a request, 5 bytes plus LEN for LOADB
(30_encoding.md section 3, R67); R68 itself refuses a payload of the wrong length for LOADB alone. -/
def Obligations.EncodeOfDecode : Prop :=
  ∀ (f : List Byte) (i : Instr), decode f = .ok i → encode i = f ∧ i.wf = true

/-- R65: the header word is `OP` in bits 39 to 36, `ADDR` in bits 35 to 20 and `LEN`, the payload's length, in bits 19 to
0; it travels most significant byte first and is followed, for LOADB alone, by the payload. -/
def Obligations.HeaderWordLayout : Prop :=
  ∀ i : Instr, i.wf = true →
    i.header.toNat = i.op.toNat * 2 ^ 36 + i.addrField.toNat * 2 ^ 20 + i.payload.length ∧
    encode i = [39, 31, 23, 15, 7].map (fun hi => BitVec.ofNat 8 (i.header.toNat / 2 ^ (hi - 7))) ++ i.payload ∧
    ((∀ a bytes, i ≠ .loadb a bytes) → i.payload = [])

/-- R66: a word `W`, with as many bytes after it as its request has, spells the row whose `W & mask == match`, with the
operands of that row; codes 0 and 7 to 15 are reserved. -/
def Obligations.OpcodeTableRows : Prop :=
  ∀ (w : Header) (p : List Byte),
    p.length = (if w.extractLsb' 36 4 = 2 then (w.extractLsb' 0 20).toNat else 0) →
    (decode (w.bytes ++ p) = .ok .reset ↔ w &&& 0xFFFFFFFFFF#40 = 0x1000000000#40) ∧
    (∀ a bytes, decode (w.bytes ++ p) = .ok (.loadb a bytes) ↔
      w &&& 0xF000000000#40 = 0x2000000000#40 ∧ a = w.extractLsb' 20 16 ∧ bytes = p) ∧
    (∀ a, decode (w.bytes ++ p) = .ok (.readb a) ↔
      w &&& 0xF0000FFFFF#40 = 0x3000000000#40 ∧ a = w.extractLsb' 20 16) ∧
    (∀ a, decode (w.bytes ++ p) = .ok (.ishit a) ↔
      w &&& 0xF0000FFFFF#40 = 0x4000000000#40 ∧ a = w.extractLsb' 20 16) ∧
    (∀ a, decode (w.bytes ++ p) = .ok (.lookup a) ↔
      w &&& 0xF0000FFFFF#40 = 0x5000000000#40 ∧ a = w.extractLsb' 20 16) ∧
    (∀ a, decode (w.bytes ++ p) = .ok (.fill a) ↔
      w &&& 0xF0000FFFFF#40 = 0x6000000000#40 ∧ a = w.extractLsb' 20 16) ∧
    ((w.extractLsb' 36 4 = 0 ∨ 7 ≤ (w.extractLsb' 36 4).toNat) → ∃ e, decode (w.bytes ++ p) = .error e)

/-- R68: the words that spell no request, and that every other word spells one (no hint encodings, no custom space); on a
word that spells none the machine is refused by name and takes no step. -/
def Obligations.IllegalWordsAreRefused : Prop :=
  ∀ (w : Header) (p : List Byte),
    let op := (w.extractLsb' 36 4).toNat
    let addr := (w.extractLsb' 20 16).toNat
    let len := (w.extractLsb' 0 20).toNat
    let illegal := (op = 0 ∨ 7 ≤ op) ∨ (op = 1 ∧ (addr ≠ 0 ∨ len ≠ 0)) ∨ (3 ≤ op ∧ op ≤ 6 ∧ len ≠ 0) ∨
      (op = 2 ∧ p.length ≠ len)
    (illegal → ∃ e, decode (w.bytes ++ p) = .error e ∧
      ∀ (s : State) (rest : List (List Byte)), s.pending = (w.bytes ++ p) :: rest → step s = .refused (.illegalRequest e)) ∧
    (¬ illegal → (op ≠ 2 → p = []) → ∃ i, decode (w.bytes ++ p) = .ok i)

/-- The worked encodings of 30_encoding.md section 5 (R74), each word written out as the bytes it travels as. -/
def Obligations.WorkedEncodings : Prop :=
  decode [0x10, 0x00, 0x00, 0x00, 0x00] = .ok .reset ∧
  decode [0x20, 0x00, 0x00, 0x00, 0x0D, 0x68, 0x65, 0x6C, 0x6C, 0x6F, 0x20, 0x77, 0x6F, 0x72, 0x6C, 0x64, 0x0A, 0x00] =
    .ok (.loadb 0x0000 [0x68, 0x65, 0x6C, 0x6C, 0x6F, 0x20, 0x77, 0x6F, 0x72, 0x6C, 0x64, 0x0A, 0x00]) ∧
  decode [0x2F, 0xFF, 0xE0, 0x00, 0x03, 1, 2, 3] = .ok (.loadb 0xFFFE [1, 2, 3]) ∧
  decode [0x2F, 0xFF, 0xF0, 0x00, 0x00] = .ok (.loadb 0xFFFF []) ∧
  (∀ p : List Byte, p.length = 65536 → decode ([0x20, 0x00, 0x01, 0x00, 0x00] ++ p) = .ok (.loadb 0x0000 p)) ∧
  decode [0x3C, 0xAF, 0xE0, 0x00, 0x00] = .ok (.readb 0xCAFE) ∧
  decode [0x4C, 0xAF, 0xE0, 0x00, 0x00] = .ok (.ishit 0xCAFE) ∧
  decode [0x50, 0x40, 0x00, 0x00, 0x00] = .ok (.lookup 0x0400) ∧
  decode [0x60, 0x10, 0x00, 0x00, 0x00] = .ok (.fill 0x0100) ∧
  decode [0x00, 0x00, 0x00, 0x00, 0x00] = .error (.reservedOp 0) ∧
  decode [0x3C, 0xAF, 0xE0, 0x00, 0x01] = .error .lenNotZero ∧
  decode [0x10, 0x00, 0x10, 0x00, 0x00] = .error .addrNotZero

/-! ## The step (20_memory.md section 4; 30_encoding.md section 5; 70_reset_and_hazards.md section 4) -/

/-- When the bytes presented next decode to a request, a step takes them off the front of the presented requests and runs
that request. The queue of presented requests is the model's (log 3). -/
def Obligations.StepRunsPresentedRequest : Prop :=
  ∀ (s : State) (f : List Byte) (rest : List (List Byte)) (i : Instr),
    s.pending = f :: rest → decode f = .ok i → step s = exec i { s with pending := rest }

/-- With no request presented the block does nothing: "the block is idle between requests and that is all" (60_exceptions.md
section 5). That an idle step is a step is the model's choice (log 3). -/
def Obligations.IdleStepChangesNothing : Prop :=
  ∀ s : State, s.pending = [] → step s = .next s

/-- A request presented by its opcode-table word is the very next to run, and nothing else is changed by presenting it
(the model's interface, log 14). -/
def Obligations.TableWordIsFetched : Prop :=
  ∀ (s : State) (nbits w : Nat) (i : Instr), decodeTableWord nbits w = some i → step (s.withFetchWord nbits w) = exec i s

/-- A run of steps over presented requests is the run of the requests, first to last (70_reset_and_hazards.md section 4;
the queue is the model's, log 3). -/
def Obligations.PresentedRunIsRequestRun : Prop :=
  ∀ (is : List Instr) (s t : State) (rs : List (Option Response)),
    (∀ i ∈ is, i.wf = true) → runRequests is s = some (rs, t) →
    Host.Core.run Sys2Proof.core is.length (presentAll s is) = .next { t with pending := [] }

/-- No request changes the configuration or the phase, none reaches into the requests still to run, and every request
that completes is answered (10_state.md sections 4 and 8; 30_encoding.md section 4). -/
def Obligations.ConfigurationIsConstant : Prop :=
  ∀ (i : Instr) (s t : State), exec i s = .next t →
    t.cfg = s.cfg ∧ t.phase = s.phase ∧ t.pending = s.pending ∧ t.response.isSome = true

/-! ## The address decoder (40_address_decoder.md) -/

/-- R80, R81, R82: the three fields, their ranges, and their corner cases and examples. -/
def Obligations.AddressFields : Prop :=
  (∀ (c : Config) (a : Addr), c.Legal →
    (tagOf c a < 2 ^ c.tagBits ∧ tagOf c a = a.toNat / 2 ^ (c.indexBits + c.offsetBits) ∧
      (c.tagBits = 0 → tagOf c a = 0) ∧ (c.tagBits = 16 → tagOf c a = a.toNat)) ∧
    (setIndex c a < c.numSets ∧ setIndex c a = a.toNat / 2 ^ c.offsetBits % 2 ^ c.indexBits ∧
      (c.indexBits = 0 → c.numSets = 1 ∧ setIndex c a = 0)) ∧
    (offsetOf c a < c.blockSize ∧ offsetOf c a = a.toNat % 2 ^ c.offsetBits ∧
      (c.offsetBits = 0 → c.blockSize = 1 ∧ offsetOf c a = 0))) ∧
  tagOf Config.reference 0xCAFE = 50 ∧ setIndex Config.reference 0xCAFE = 11 ∧ offsetOf Config.reference 0xCAFE = 62

/-- The bounds of a block: where it starts and ends, that it is aligned, that it holds the address, and that it never
leaves the address space (40_address_decoder.md sections 1 and 2, R83, R84, R88, parts of which the spec marks as
derived; 20_memory.md section 2, R57). -/
def Obligations.BlockBounds : Prop :=
  ∀ (c : Config) (a : Addr), c.Legal →
    blockStart c a = a.toNat - offsetOf c a ∧ blockStart c a % c.blockSize = 0 ∧
    blockEnd c a = blockStart c a + c.blockSize - 1 ∧ blockEnd c a - blockStart c a = c.blockSize - 1 ∧
    blockStart c a ≤ a.toNat ∧ a.toNat ≤ blockEnd c a ∧ blockEnd c a ≤ 65535

/-- R62: reassembling the fields gives the address, and with offset 0 the first address of the block. -/
def Obligations.AddressRoundTrip : Prop :=
  ∀ (c : Config) (a : Addr), c.Legal →
    (tagOf c a <<< (c.indexBits + c.offsetBits)) ||| (setIndex c a <<< c.offsetBits) ||| offsetOf c a = a.toNat ∧
    (tagOf c a <<< (c.indexBits + c.offsetBits)) ||| (setIndex c a <<< c.offsetBits) ||| 0 = blockStart c a

/-- Every triple of fields in range is the decomposition of exactly one address (40_address_decoder.md section 2, the
converse of R86, which the spec marks as derived). -/
def Obligations.DecompositionIsUnique : Prop :=
  ∀ (c : Config) (t i o : Nat), c.Legal → t < 2 ^ c.tagBits → i < c.numSets → o < c.blockSize →
    ∃ a : Addr, (tagOf c a = t ∧ setIndex c a = i ∧ offsetOf c a = o) ∧
      ∀ b : Addr, tagOf c b = t ∧ setIndex c b = i ∧ offsetOf c b = o → b = a

/-- Partition uniformity: exactly `AddressSpace / NumSets` addresses have each index value, and each set is the home of
`2^TagBits` blocks (40_address_decoder.md section 2, R87; the count of blocks the spec marks as derived). -/
def Obligations.PartitionIsUniform : Prop :=
  ∀ (c : Config) (i : Nat), c.Legal → i < c.numSets →
    ((List.range 65536).filter fun n => setIndex c (BitVec.ofNat 16 n) = i).length = 65536 / c.numSets ∧
    ((List.range 65536).filter fun n => setIndex c (BitVec.ofNat 16 n) = i ∧ blockStart c (BitVec.ofNat 16 n) = n).length =
      2 ^ c.tagBits

/-- Every address of a block has the tag, the index and the bounds of the block, and its own distance from the start as
offset (40_address_decoder.md section 2, R89, which the spec marks as derived). -/
def Obligations.SameBlockSameFields : Prop :=
  ∀ (c : Config) (a b : Addr), c.Legal → blockStart c a ≤ b.toNat → b.toNat ≤ blockEnd c a →
    tagOf c b = tagOf c a ∧ setIndex c b = setIndex c a ∧ blockStart c b = blockStart c a ∧
    blockEnd c b = blockEnd c a ∧ offsetOf c b = b.toNat - blockStart c a

/-! ## System start, phases and errors (60_exceptions.md; 70_reset_and_hazards.md) -/

/-- R160: the block at system start is the block RESET leaves, if the configuration is legal, and is in ConfigFault, with
no lines, store or replacement state, if it is not; an initial RESET changes nothing. -/
def Obligations.SystemStartIsReset : Prop :=
  ∀ c : Config,
    (c.Legal →
      (∀ s t : State, s.cfg = c → s.phase = .ready → exec .reset s = .next t →
        State.start c = { t with pending := [], response := none }) ∧
      exec .reset (State.start c) = .next { State.start c with
        response := some { status := .ok, hit := false, filled := false, way := 0, data := 0 } }) ∧
    (¬ c.Legal → (State.start c).Absent)

/-- R142: a block of an illegal configuration is in ConfigFault from the start and has nothing; there every request, of
all six kinds, is answered CONFIG_ERROR with every other field 0, and changes nothing. -/
def Obligations.ConfigFaultAnswersEveryRequest : Prop :=
  (∀ c : Config, ¬ c.Legal → (State.start c).Absent) ∧
  ∀ (i : Instr) (s : State), s.phase = .configFault →
    exec i s = .next { s with
      response := some { status := .configError, hit := false, filled := false, way := 0, data := 0 } }

/-- R140: in phase Ready every request is answered; RESET, READB, ISHIT, LOOKUP and FILL always OK, LOADB OK or
OUT_OF_RANGE. -/
def Obligations.ReadyRequestsRespond : Prop :=
  ∀ (i : Instr) (s : State), s.Shaped → ∃ t r, exec i s = .next t ∧ t.response = some r ∧
    (r.status = .ok ∨ (r.status = .outOfRange ∧ ∃ a bytes, i = .loadb a bytes))

/-- No step faults, and a step is refused only for bytes that spell no request (60_exceptions.md section 5, R157, which
the spec marks as derived; the fault is the model's, log 7). -/
def Obligations.StepNeverFaults : Prop :=
  ∀ s : State, s.Inv → (∃ t, step s = .next t) ∨
    ∃ f rest e, s.pending = f :: rest ∧ decode f = .error e ∧ step s = .refused (.illegalRequest e)

/-- R69: every request is answered; the status codes; which fields the answer of each request sets; all others are 0, and
all are 0 beside an error; `way` fits `WayBits`. -/
def Obligations.ResponseFields : Prop :=
  (statusCode .ok = 0 ∧ statusCode .configError = 1 ∧ statusCode .outOfRange = 2) ∧
  ∀ (i : Instr) (s t : State), (s.Shaped ∨ s.phase = .configFault) → exec i s = .next t →
    ∃ r, t.response = some r ∧ r.way < 2 ^ s.cfg.wayBits ∧
      (r.status = .outOfRange → ∃ a bytes, i = .loadb a bytes) ∧ (r.status = .configError ↔ s.phase = .configFault) ∧
      (r.status ≠ .ok → r.hit = false ∧ r.filled = false ∧ r.way = 0 ∧ r.data = 0) ∧
      (i = .reset → r.hit = false ∧ r.filled = false ∧ r.way = 0 ∧ r.data = 0) ∧
      (∀ a bytes, i = .loadb a bytes → r.hit = false ∧ r.filled = false ∧ r.way = 0 ∧ r.data = 0) ∧
      (r.status = .ok →
        (∀ a, i = .readb a → (r.hit = true ↔ Resident s a) ∧ r.filled = (!r.hit) ∧
          (r.hit = true → FirstMatch s a r.way) ∧ (r.hit = false → IsVictim s (setIndex s.cfg a) r.way) ∧
          r.data = (lineAt t (setIndex s.cfg a) r.way).data.getD (offsetOf s.cfg a) 0) ∧
        (∀ a, i = .ishit a → (r.hit = true ↔ Resident s a) ∧ r.filled = false ∧ r.way = 0 ∧ r.data = 0) ∧
        (∀ a, i = .lookup a → (r.hit = true ↔ Resident s a) ∧ r.filled = false ∧ r.data = 0 ∧
          (r.hit = true → FirstMatch s a r.way) ∧ (r.hit = false → r.way = 0)) ∧
        (∀ a, i = .fill a → (r.hit = true ↔ Resident s a) ∧ r.filled = true ∧ r.data = 0 ∧
          (r.hit = true → FirstMatch s a r.way) ∧ (r.hit = false → IsVictim s (setIndex s.cfg a) r.way)))

/-! ## RESET (44_reset_op.md) -/

/-- R125: RESET is the word 0x1000000000; it answers OK and leaves every line invalid, clean, with tag 0 and zero data, every byte of the store
zero, and the replacement state of the configured policy at its reset value; the configuration, the phase and the
requests still to run are unchanged. With an illegal configuration it raises ConfigurationError and changes nothing. -/
def Obligations.ResetEffect : Prop :=
  encode .reset = Header.bytes 0x1000000000#40 ∧ ∀ s : State,
    (s.phase = .ready → s.cfg.Legal → ∃ t, exec .reset s = .next t ∧
      t.response = some { status := .ok, hit := false, filled := false, way := 0, data := 0 } ∧
      t.cfg = s.cfg ∧ t.phase = .ready ∧ t.pending = s.pending ∧
      t.lines.length = s.cfg.numSets ∧
      (∀ x < s.cfg.numSets, (setAt t x).length = s.cfg.associativity ∧ ∀ w < s.cfg.associativity,
        lineAt t x w = { tag := 0, valid := false, dirty := false, data := List.replicate s.cfg.blockSize 0 }) ∧
      (∀ a < 65536, t.bs.read a = 0) ∧
      (s.cfg.policy = .fifo → t.rr = List.replicate s.cfg.numSets 0 ∧ t.lru = []) ∧
      (s.cfg.policy = .lru → t.lru = List.replicate s.cfg.numSets (List.range s.cfg.associativity) ∧ t.rr = [])) ∧
    (¬ s.cfg.Legal → exec .reset s = .next { s with
      response := some { status := .configError, hit := false, filled := false, way := 0, data := 0 } })

/-- R97: right after RESET, ISHIT answers a miss for every address. -/
def Obligations.ColdCacheMiss : Prop :=
  ∀ (s t : State) (a : Addr), s.phase = .ready → s.cfg.Legal → exec .reset s = .next t →
    exec (.ishit a) t = .next { t with
      response := some { status := .ok, hit := false, filled := false, way := 0, data := 0 } }

/-- Right after RESET, READB of any address misses, fills way 0 and reads 0x00 (20_memory.md section 4, R55, and
43_replacement.md section 1, both of which the spec marks as derived here). -/
def Obligations.AfterResetReadsZero : Prop :=
  ∀ (s t : State) (a : Addr), s.phase = .ready → s.cfg.Legal → exec .reset s = .next t →
    ∃ u, exec (.readb a) t = .next u ∧
      u.response = some { status := .ok, hit := false, filled := true, way := 0, data := 0 }

/-! ## LOOKUP and ISHIT (41_lookup.md) -/

/-- R91, R94: LOOKUP is `OP` 5; it answers the lowest matching way, or a miss, and changes nothing but the response; in ConfigFault it
answers CONFIG_ERROR. -/
def Obligations.LookupEffect : Prop :=
  ∀ (s : State) (a : Addr), encode (.lookup a) = Header.bytes ((0x5#4 ++ a) ++ 0#20) ∧
    (s.Shaped →
      (∀ w, FirstMatch s a w → exec (.lookup a) s = .next { s with
        response := some { status := .ok, hit := true, filled := false, way := w, data := 0 } }) ∧
      (¬ Resident s a → exec (.lookup a) s = .next { s with
        response := some { status := .ok, hit := false, filled := false, way := 0, data := 0 } }) ∧
      (Resident s a → ∃ w, FirstMatch s a w)) ∧
    (s.phase = .configFault → exec (.lookup a) s = .next { s with
      response := some { status := .configError, hit := false, filled := false, way := 0, data := 0 } })

/-- R95: ISHIT is `OP` 4; it answers whether the block is resident, and changes nothing but the response; in ConfigFault it answers
CONFIG_ERROR. -/
def Obligations.IshitEffect : Prop :=
  ∀ (s : State) (a : Addr), encode (.ishit a) = Header.bytes ((0x4#4 ++ a) ++ 0#20) ∧
    (s.Shaped → exec (.ishit a) s = .next { s with
      response := some { status := .ok, hit := decide (Resident s a), filled := false, way := 0, data := 0 } }) ∧
    (s.phase = .configFault → exec (.ishit a) s = .next { s with
      response := some { status := .configError, hit := false, filled := false, way := 0, data := 0 } })

/-- R92: Lookup reads the valid bits and tags of the ways of one set and nothing else: states that agree on those give
LOOKUP and ISHIT one answer, whatever their data, dirty bits, store, replacement state and other sets; and it writes
nothing. -/
def Obligations.LookupReadsOneSet : Prop :=
  ∀ (s u : State) (a : Addr), s.Shaped → u.Shaped → u.cfg = s.cfg →
    (∀ w < s.cfg.associativity,
      (lineAt u (setIndex s.cfg a) w).valid = (lineAt s (setIndex s.cfg a) w).valid ∧
      (lineAt u (setIndex s.cfg a) w).tag = (lineAt s (setIndex s.cfg a) w).tag) →
    ∀ i ∈ [Instr.lookup a, Instr.ishit a], ∃ r : Response,
      exec i s = .next { s with response := some r } ∧ exec i u = .next { u with response := some r }

/-- Block-wide agreement: LOOKUP and ISHIT of any address of a block answer as for the block (41_lookup.md section 4, R98,
which the spec marks as derived). -/
def Obligations.BlockWideAgreement : Prop :=
  ∀ (s : State) (a b : Addr), blockStart s.cfg a ≤ b.toNat → b.toNat ≤ blockEnd s.cfg a →
    exec (.lookup b) s = exec (.lookup a) s ∧ exec (.ishit b) s = exec (.ishit a) s

/-! ## READB and FILL (45_host_api.md; 42_fill.md) -/

/-- R133: READB is `OP` 3. On a hit, the byte of the cached block, the use recorded, no line and no pointer changed, the store not
read; on a miss, the victim is filled from the store and the byte is the store's; in ConfigFault, CONFIG_ERROR. -/
def Obligations.ReadbEffect : Prop :=
  ∀ (s : State) (a : Addr), encode (.readb a) = Header.bytes ((0x3#4 ++ a) ++ 0#20) ∧
    (s.Shaped →
      (∀ w, FirstMatch s a w → ∃ t, exec (.readb a) s = .next t ∧
        t.response = some
          { status := .ok, hit := true, filled := false, way := w
            data := (lineAt s (setIndex s.cfg a) w).data.getD (offsetOf s.cfg a) 0 } ∧
        SameSurroundings s t ∧ t.lines = s.lines ∧ t.rr = s.rr ∧ TouchedOnly s t (setIndex s.cfg a) w) ∧
      (¬ Resident s a → ∃ t w, IsVictim s (setIndex s.cfg a) w ∧ exec (.readb a) s = .next t ∧
        t.response = some { status := .ok, hit := false, filled := true, way := w, data := s.bs.read a.toNat } ∧
        LoadedInto s t a w ∧ PointerAfterMiss s t (setIndex s.cfg a))) ∧
    (s.phase = .configFault → exec (.readb a) s = .next { s with
      response := some { status := .configError, hit := false, filled := false, way := 0, data := 0 } })

/-- R100, R101, R102: FILL is `OP` 6. A block that is not resident is loaded into the victim; a resident one is reloaded in
its own way, with no victim selected and no pointer moved; exactly one line is written and no byte of the store; in
ConfigFault, CONFIG_ERROR. -/
def Obligations.FillEffect : Prop :=
  ∀ (s : State) (a : Addr), encode (.fill a) = Header.bytes ((0x6#4 ++ a) ++ 0#20) ∧
    (s.Shaped →
      (¬ Resident s a → ∃ t w, IsVictim s (setIndex s.cfg a) w ∧ exec (.fill a) s = .next t ∧
        t.response = some { status := .ok, hit := false, filled := true, way := w, data := 0 } ∧
        LoadedInto s t a w ∧ PointerAfterMiss s t (setIndex s.cfg a)) ∧
      (∀ w, FirstMatch s a w → ∃ t, exec (.fill a) s = .next t ∧
        t.response = some { status := .ok, hit := true, filled := true, way := w, data := 0 } ∧
        LoadedInto s t a w ∧ t.rr = s.rr)) ∧
    (s.phase = .configFault → exec (.fill a) s = .next { s with
      response := some { status := .configError, hit := false, filled := false, way := 0, data := 0 } })

/-- R103: after a fill of `a`, by FILL or by READB, every address of the block hits; and the hit lasts until that line is
the victim of a later fill in the same set, or RESET. -/
def Obligations.FillThenHit : Prop :=
  (∀ (s t : State) (a b : Addr), s.Shaped → (exec (.fill a) s = .next t ∨ exec (.readb a) s = .next t) →
    blockStart s.cfg a ≤ b.toNat → b.toNat ≤ blockEnd s.cfg a →
    exec (.ishit b) t = .next { t with
      response := some { status := .ok, hit := true, filled := false, way := 0, data := 0 } }) ∧
  (∀ (s t : State) (i : Instr) (a : Addr) (w : Nat), s.Shaped → FirstMatch s a w → exec i s = .next t →
    Resident t a ∨ i = .reset ∨
    ∃ b, (i = .fill b ∨ i = .readb b) ∧ setIndex s.cfg b = setIndex s.cfg a ∧ ¬ Resident s b ∧
      IsVictim s (setIndex s.cfg a) w)

/-- Idempotence: a second FILL of the block leaves the state the first left, but for the response, which now says hit in
the same way (42_fill.md section 2, R104, which the spec marks as derived). -/
def Obligations.FillIsIdempotent : Prop :=
  ∀ (s t : State) (a : Addr) (r : Response), s.Shaped → exec (.fill a) s = .next t → t.response = some r →
    exec (.fill a) t = .next { t with response := some { r with hit := true } }

/-- R107: a fill, by FILL or by READB, loads the block as the present store has it, reads no other byte of the store, and
a LOADB after it does not change what it loaded. -/
def Obligations.FillReadsOnlyTheBlock : Prop :=
  ∀ (s t : State) (a : Addr), s.Shaped → ∀ i ∈ [Instr.fill a, Instr.readb a], exec i s = .next t →
    (∀ r, t.response = some r → r.filled = true → HoldsBlock s t a r.way) ∧
    (∀ m : Memory, (∀ k < s.cfg.blockSize, m.read (blockStart s.cfg a + k) = s.bs.read (blockStart s.cfg a + k)) →
      exec i { s with bs := m } = .next { t with bs := m }) ∧
    (∀ (b : Addr) (bytes : List Byte) (u : State), exec (.loadb b bytes) t = .next u → u.lines = t.lines)

/-- Two READBs of one address one after the other answer one byte, and the second hits in the way the first answered
(20_memory.md section 2, R48; 45_host_api.md section 2). -/
def Obligations.SecondReadHitsWithTheSameByte : Prop :=
  ∀ (s t : State) (a : Addr) (r : Response), s.Shaped → exec (.readb a) s = .next t → t.response = some r →
    ∃ u, exec (.readb a) t = .next u ∧ u.response = some { r with hit := true, filled := false }

/-- A READB or FILL reads the lines and the replacement state of the address's set alone: states that agree on that set,
the configuration and the store answer alike and are left alike in the lines and the replacement state of that set, and no
other set changes (43_replacement.md section 1, R111; 41_lookup.md section 1). -/
def Obligations.SetsAreIndependent : Prop :=
  ∀ (s u t v : State) (a : Addr), s.Shaped → u.Shaped → u.cfg = s.cfg → u.bs = s.bs →
    setAt u (setIndex s.cfg a) = setAt s (setIndex s.cfg a) → rrAt u (setIndex s.cfg a) = rrAt s (setIndex s.cfg a) →
    lruAt u (setIndex s.cfg a) = lruAt s (setIndex s.cfg a) →
    ∀ i ∈ [Instr.fill a, Instr.readb a], exec i s = .next t → exec i u = .next v →
      v.response = t.response ∧ setAt v (setIndex s.cfg a) = setAt t (setIndex s.cfg a) ∧
      rrAt v (setIndex s.cfg a) = rrAt t (setIndex s.cfg a) ∧ lruAt v (setIndex s.cfg a) = lruAt t (setIndex s.cfg a) ∧
      ∀ y, y ≠ setIndex s.cfg a → setAt t y = setAt s y ∧ rrAt t y = rrAt s y ∧ lruAt t y = lruAt s y

/-! ## LOADB and the store (45_host_api.md; 20_memory.md) -/

/-- R130: LOADB is `OP` 2 with its bytes after the header; it writes `BS[ADDR+i] <- bytes[i]` and nothing else when the range fits, the last byte of the store included;
it raises OutOfRangeError exactly when `ADDR + LEN > 65536`; in ConfigFault it answers CONFIG_ERROR and writes nothing. -/
def Obligations.LoadbEffect : Prop :=
  ∀ (s : State) (a : Addr) (bytes : List Byte),
    encode (.loadb a bytes) = Header.bytes ((0x2#4 ++ a) ++ BitVec.ofNat 20 bytes.length) ++ bytes ∧
    (s.phase = .ready → s.bs.wf = true →
      (a.toNat + bytes.length ≤ 65536 → ∃ t, exec (.loadb a bytes) s = .next t ∧
        t = { s with bs := t.bs, response := t.response } ∧
        t.response = some { status := .ok, hit := false, filled := false, way := 0, data := 0 } ∧
        (∀ i < bytes.length, t.bs.read (a.toNat + i) = bytes.getD i 0) ∧
        (∀ b, b < a.toNat ∨ a.toNat + bytes.length ≤ b → t.bs.read b = s.bs.read b) ∧ t.bs.wf = true) ∧
      (65536 < a.toNat + bytes.length → ∃ t, exec (.loadb a bytes) s = .next t ∧
        t.response = some { status := .outOfRange, hit := false, filled := false, way := 0, data := 0 })) ∧
    (s.phase = .configFault → exec (.loadb a bytes) s = .next { s with
      response := some { status := .configError, hit := false, filled := false, way := 0, data := 0 } })

/-- R131: a LOADB out of range answers OUT_OF_RANGE, leaves lines, replacement state and phase as they were, and
writes nothing, or under LoadPartial the bytes whose addresses exist; it never wraps to address 0. -/
def Obligations.LoadbOutOfRange : Prop :=
  ∀ (s : State) (a : Addr) (bytes : List Byte), s.phase = .ready → s.bs.wf = true → 65536 < a.toNat + bytes.length →
    ∃ t, exec (.loadb a bytes) s = .next t ∧
      t = { s with bs := t.bs, response := t.response } ∧
      t.response = some { status := .outOfRange, hit := false, filled := false, way := 0, data := 0 } ∧
      (s.cfg.loadPartial = false → t.bs = s.bs) ∧
      (s.cfg.loadPartial = true →
        (∀ i, a.toNat + i ≤ 65535 → t.bs.read (a.toNat + i) = bytes.getD i 0) ∧
        (∀ b, b < a.toNat ∨ 65536 ≤ b → t.bs.read b = s.bs.read b) ∧ t.bs.wf = true)

/-- R16: the store has 65536 bytes, zero at the start, written by RESET, to 0, and by LOADB alone, and read by the fill
alone: RESET, LOADB, ISHIT, LOOKUP and a READB that hits answer the same, and leave the same lines and replacement state,
whatever the store holds; and the bytes RESET and LOADB write are the same, LOADB leaving every other byte as it was. -/
def Obligations.StoreReadersAndWriters : Prop :=
  (∀ (c : Config) (a : Nat), c.Legal → (State.start c).bs.read a = 0) ∧
  (∀ (s : State) (a : Nat), s.bs.wf = true → s.bs.read a ≠ 0 → a < 65536) ∧
  (∀ (s t : State) (a : Nat), s.Shaped → exec .reset s = .next t → t.bs.read a = 0) ∧
  (∀ (i : Instr) (s t : State), exec i s = .next t → i ≠ .reset → (∀ a bytes, i ≠ .loadb a bytes) → t.bs = s.bs) ∧
  (∀ (s t : State) (i : Instr) (m : Memory), s.Shaped → exec i s = .next t →
    ((∃ a, i = .ishit a ∨ i = .lookup a ∨ (i = .readb a ∧ Resident s a)) →
      exec i { s with bs := m } = .next { t with bs := m }) ∧
    (i = .reset → exec i { s with bs := m } = .next t) ∧
    (∀ a bytes, i = .loadb a bytes → m.wf = true → ∃ n, exec i { s with bs := m } = .next { t with bs := n } ∧
      ∀ b, n.read b =
        if a.toNat ≤ b ∧ b < a.toNat + bytes.length ∧ b < 65536 ∧
          (a.toNat + bytes.length ≤ 65536 ∨ s.cfg.loadPartial = true) then t.bs.read b else m.read b))

/-- The cache is not coherent with LOADB: a READB of a resident block answers after any LOADB what it would have answered
before it (20_memory.md section 4, R50, which the spec marks as derived). -/
def Obligations.LoadbDoesNotReachResidentLines : Prop :=
  ∀ (s t : State) (a b : Addr) (bytes : List Byte), s.Shaped → Resident s a → exec (.loadb b bytes) s = .next t →
    ∃ u v, exec (.readb a) s = .next u ∧ exec (.readb a) t = .next v ∧ v.response = u.response ∧ v.lines = u.lines

/-- A loaded byte is seen by READB when its block was not resident, and after a FILL of the block in any case
(20_memory.md section 4, R53, R55; the table the spec marks as derived). -/
def Obligations.LoadedByteIsSeen : Prop :=
  ∀ (s t : State) (a : Addr) (v : Byte), s.Shaped → exec (.loadb a [v]) s = .next t →
    (¬ Resident s a → ∃ u r, exec (.readb a) t = .next u ∧ u.response = some r ∧ r.hit = false ∧ r.data = v) ∧
    (∀ u, exec (.fill a) t = .next u → ∃ x r, exec (.readb a) u = .next x ∧ x.response = some r ∧
      r.hit = true ∧ r.data = v)

/-! ## Replacement (43_replacement.md) -/

/-- The contract of a policy, kept by the selector `selectVictim` under both policies: in every set it names one of the
set's ways, the way `IsVictim` describes, which is the only one; an invalid way whenever the set has one, the lowest; and
selecting changes nothing but the FIFO pointers (43_replacement.md section 1, R110 (b), (d), R111, R112; sections 2 and 3
for the way of a full set). -/
def Obligations.VictimContract : Prop :=
  ∀ (s : State) (x : Nat), s.Shaped → x < s.cfg.numSets →
    (selectVictim s x).1 < s.cfg.associativity ∧ IsVictim s x (selectVictim s x).1 ∧
    (∀ v, IsVictim s x v → v = (selectVictim s x).1) ∧
    (¬ SetFull s x → (lineAt s x (selectVictim s x).1).valid = false ∧
      ∀ v < s.cfg.associativity, (lineAt s x v).valid = false → (selectVictim s x).1 ≤ v) ∧
    (selectVictim s x).2 = { s with rr := (selectVictim s x).2.rr }

/-- R117: what counts as a use. Under LRU a fill and a READB, hit or miss, move the way they answer to the front of
its set's list; ISHIT, LOOKUP and LOADB move nothing; RESET restores the lists. Under FIFO nothing is recorded. -/
def Obligations.UsesRecorded : Prop :=
  ∀ (s t : State) (i : Instr) (r : Response), s.Shaped → exec i s = .next t → t.response = some r →
    (s.cfg.policy = .lru →
      (i = .reset → t.lru = List.replicate s.cfg.numSets (List.range s.cfg.associativity)) ∧
      (∀ a bytes, i = .loadb a bytes → t.lru = s.lru) ∧ (∀ a, i = .ishit a ∨ i = .lookup a → t.lru = s.lru) ∧
      (∀ a, i = .readb a ∨ i = .fill a → t.lru = s.lru.set (setIndex s.cfg a)
        (r.way :: (lruAt s (setIndex s.cfg a)).filter (· ≠ r.way)) ∧
        (lruAt t (setIndex s.cfg a)).Perm (List.range s.cfg.associativity))) ∧
    (s.cfg.policy = .fifo → t.lru = s.lru)

/-- The FIFO pointer of a set moves, by one modulo Associativity, when a READB or FILL evicts from the full set, and at no
other time; RESET returns every pointer to 0 (43_replacement.md section 2, R113, R114). -/
def Obligations.FifoPointerMovesOnlyOnEviction : Prop :=
  ∀ (s t : State) (i : Instr) (x : Nat), s.Shaped → s.cfg.policy = .fifo → x < s.cfg.numSets → exec i s = .next t →
    (i = .reset → rrAt t x = 0) ∧
    (∀ a, (i = .readb a ∨ i = .fill a) → setIndex s.cfg a = x → ¬ Resident s a → SetFull s x →
      rrAt t x = (rrAt s x + 1) % s.cfg.associativity ∧ ∃ r, t.response = some r ∧ r.way = rrAt s x) ∧
    (i ≠ .reset → (∀ a, (i = .readb a ∨ i = .fill a) → setIndex s.cfg a = x → Resident s a ∨ ¬ SetFull s x) →
      rrAt t x = rrAt s x)

/-- FIFO evicts the oldest: the pointer agrees with the order in which the ways were installed, after every request, so
the way it points at in a full set holds the block installed longest ago (43_replacement.md section 2, R114). The order is
kept by an observer, not by the block. -/
def Obligations.FifoEvictsTheOldest : Prop :=
  (∀ c : Config, c.Legal → c.policy = .fifo → (State.start c).FifoOrdered fun _ => []) ∧
  (∀ (s t : State) (i : Instr) (g : WayOrders), s.Inv → s.phase = .ready → s.cfg.policy = .fifo →
    s.FifoOrdered g → exec i s = .next t → t.FifoOrdered (g.afterInstall i t)) ∧
  (∀ (s : State) (g : WayOrders) (x : Nat), s.Shaped → s.cfg.policy = .fifo → s.FifoOrdered g →
    x < s.cfg.numSets → SetFull s x → (g x).head? = some (rrAt s x))

/-- LRU evicts the least recently used: the list agrees with the order of use after every request, and in a full set owes
nothing to its reset value, so the victim is the way used longest ago (43_replacement.md section 3, R115, R116; 10_state.md
section 3, R22). The order is kept by an observer, not by the block. -/
def Obligations.LruEvictsTheLeastRecentlyUsed : Prop :=
  (∀ c : Config, c.Legal → c.policy = .lru → (State.start c).LruOrdered fun _ => []) ∧
  (∀ (s t : State) (i : Instr) (g : WayOrders), s.Inv → s.phase = .ready → s.cfg.policy = .lru →
    s.LruOrdered g → exec i s = .next t → t.LruOrdered (g.afterUse i t)) ∧
  (∀ (s : State) (g : WayOrders) (x w : Nat), s.Shaped → s.cfg.policy = .lru → s.LruOrdered g →
    x < s.cfg.numSets → SetFull s x → lruAt s x = g x ∧ (IsVictim s x w ↔ (g x).getLast? = some w))

/-- Conflict miss: when a set is full and a further tag of it is read or filled, exactly the victim's block leaves and the
new one is resident; in a set that is not full nothing leaves (43_replacement.md section 4, R118; 90_conflicts.md C7). -/
def Obligations.ConflictMiss : Prop :=
  ∀ (s t : State) (a : Addr) (i : Instr), s.Shaped → s.Uniq → (i = .fill a ∨ i = .readb a) → ¬ Resident s a →
    exec i s = .next t →
    Resident t a ∧
    (SetFull s (setIndex s.cfg a) → ∃ w, IsVictim s (setIndex s.cfg a) w ∧
      ∀ b, Resident s b → (Resident t b ↔
        ¬ (setIndex s.cfg b = setIndex s.cfg a ∧ tagOf s.cfg b = (lineAt s (setIndex s.cfg a) w).tag))) ∧
    (¬ SetFull s (setIndex s.cfg a) → ∀ b, Resident s b → Resident t b)

/-- The laws of the fill hold for every policy that meets the contract: whatever way a miss loads, if it is invalid or the
set is full, the block is then resident at every address of it, UNIQ is kept, and only that line has changed
(43_replacement.md section 4, R119, which the spec marks as derived). -/
def Obligations.FillLawsHoldForAnyPolicy : Prop :=
  ∀ (s : State) (a : Addr) (w : Nat), s.Shaped → s.Uniq → ¬ Resident s a → w < s.cfg.associativity →
    ((lineAt s (setIndex s.cfg a) w).valid = false ∨ SetFull s (setIndex s.cfg a)) →
    ∃ t, loadWay s a w = some t ∧ t.Uniq ∧ LoadedInto s t a w ∧
      (∀ b : Addr, blockStart s.cfg a ≤ b.toNat → b.toNat ≤ blockEnd s.cfg a → Resident t b) ∧
      (∀ b : Addr, Resident s b →
        ¬ (setIndex s.cfg b = setIndex s.cfg a ∧ SetFull s (setIndex s.cfg a) ∧
          tagOf s.cfg b = (lineAt s (setIndex s.cfg a) w).tag) → Resident t b)

/-! ## Invariants (10_state.md) -/

/-- R17, R19: a line is Invalid at the start, and what changes a line: a request leaves it as it was; or it is RESET and
the line is invalid and zeroed; or it is the READB or FILL whose fill wrote this line, which is then Valid/Clean. -/
def Obligations.LineTransitions : Prop :=
  (∀ (c : Config) (x w : Nat), c.Legal → x < c.numSets → w < c.associativity →
    lineState (lineAt (State.start c) x w) = some .invalid) ∧
  ∀ (s t : State) (i : Instr) (x w : Nat), s.Shaped → s.Clean → x < s.cfg.numSets → w < s.cfg.associativity →
    exec i s = .next t →
    (∃ q, lineState (lineAt s x w) = some q) ∧ (∃ q, lineState (lineAt t x w) = some q) ∧
    (i = .reset → lineState (lineAt t x w) = some .invalid ∧ lineAt t x w = resetLine s.cfg) ∧
    (i ≠ .reset → lineAt t x w = lineAt s x w ∨
      ∃ a r, (i = .readb a ∨ i = .fill a) ∧ x = setIndex s.cfg a ∧ t.response = some r ∧ r.filled = true ∧ r.way = w ∧
        lineState (lineAt t x w) = some .validClean ∧ HoldsBlock s t a w) ∧
    (∀ a r, (i = .readb a ∨ i = .fill a) → x = setIndex s.cfg a → t.response = some r → r.filled = true → r.way = w →
      (lineAt t x w).valid = true)

/-- R15: UNIQ holds after reset, because no line is valid, and every operation preserves it. -/
def Obligations.UniqueTags : Prop :=
  (∀ s t : State, s.phase = .ready → s.cfg.Legal → exec .reset s = .next t →
    t.Uniq ∧ ∀ x < s.cfg.numSets, ∀ w < s.cfg.associativity, (lineAt t x w).valid = false) ∧
  ∀ (s t : State) (i : Instr), s.Shaped → s.Uniq → exec i s = .next t → t.Uniq

/-- The invariant of the machine holds at system start, of every configuration, and so at reset. -/
def Obligations.StartSatisfiesInv : Prop :=
  State.reset.Inv ∧ ∀ c : Config, (State.start c).Inv

/-- Every step keeps the invariant of the machine, from every state that meets it: of a Ready block its shape (widths,
canonical store, replacement state), UNIQ, CLEAN, PREFIX and ZERO-INVALID; of a block in ConfigFault that it has nothing
(10_state.md sections 1 to 4 and 7: R15, and R18, R28, R30, which the spec marks as derived). -/
def Obligations.StepKeepsInv : Prop :=
  ∀ s t : State, s.Inv → step s = .next t → t.Inv

/-- SNAPSHOT: after every request, every valid line holds the bytes the store had when the line was last filled, and a
READB that hits answers the byte of that store (10_state.md section 7, R29; 45_host_api.md section 2, R134; both marked
derived). The stores remembered are an observer's, not the block's. -/
def Obligations.LinesAreSnapshots : Prop :=
  (∀ (c : Config) (g : Snapshots), c.Legal → (State.start c).SnapshotOf g) ∧
  (∀ (s t : State) (i : Instr) (g : Snapshots), s.Shaped → s.SnapshotOf g → exec i s = .next t →
    t.SnapshotOf (g.after i t)) ∧
  (∀ (s t : State) (a : Addr) (g : Snapshots) (w : Nat), s.Shaped → s.SnapshotOf g → FirstMatch s a w →
    exec (.readb a) s = .next t → ∃ m r, g (setIndex s.cfg a) w = some m ∧ t.response = some r ∧
      r.data = m.read a.toNat)

/-- The cache is transparent to a requester that never loads into a resident block: every valid line then agrees with the
present store, and READB answers the present byte of the store (45_host_api.md section 2, R134, which the spec marks as
derived). -/
def Obligations.CacheIsTransparent : Prop :=
  (∀ c : Config, c.Legal → (State.start c).Coherent) ∧
  (∀ (s t : State) (i : Instr), s.Shaped → s.Coherent → AvoidsResident s i → exec i s = .next t → t.Coherent) ∧
  (∀ (s : State) (a : Addr), s.Shaped → s.Coherent → ∃ t r, exec (.readb a) s = .next t ∧ t.response = some r ∧
    r.status = .ok ∧ r.data = s.bs.read a.toNat)

/-- R9: replaying a request sequence from a fresh RESET yields the same responses and the same final contents, whatever
the block held before. -/
def Obligations.ReplayAfterResetIsDetermined : Prop :=
  ∀ (is : List Instr) (s u : State), s.phase = .ready → u.phase = .ready → s.cfg.Legal → u.cfg = s.cfg →
    ∃ rs t, runRequests (.reset :: is) s = some (rs, t) ∧
      runRequests (.reset :: is) u = some (rs, { t with pending := u.pending })
end

