-- ==== Sys2Proof/Laws/Decoder.lean ====
section
/-! SUPPORT. The address decoder in division and remainder form, and the ranges of its results. -/
namespace Sys2Proof.Machine

variable (c : Config) (a : Addr)

theorem Config.numSets_pos : 0 < c.numSets := Nat.two_pow_pos _
theorem Config.blockSize_pos : 0 < c.blockSize := Nat.two_pow_pos _

theorem tagOf_eq_div : tagOf c a = a.toNat / 2 ^ (c.indexBits + c.offsetBits) := Nat.shiftRight_eq_div_pow _ _

theorem setIndex_eq_mod : setIndex c a = a.toNat / c.blockSize % c.numSets := by
  rw [setIndex, Config.numSets, Nat.and_two_pow_sub_one_eq_mod, Nat.shiftRight_eq_div_pow, Config.blockSize]

theorem offsetOf_eq_mod : offsetOf c a = a.toNat % c.blockSize := Nat.and_two_pow_sub_one_eq_mod _ _

theorem setIndex_lt : setIndex c a < c.numSets := by
  rw [setIndex_eq_mod]; exact Nat.mod_lt _ (Config.numSets_pos c)

theorem offsetOf_lt : offsetOf c a < c.blockSize := by
  rw [offsetOf_eq_mod]; exact Nat.mod_lt _ (Config.blockSize_pos c)

theorem offsetOf_le : offsetOf c a ≤ a.toNat := by rw [offsetOf_eq_mod]; exact Nat.mod_le _ _

theorem blockStart_add_offset : blockStart c a + offsetOf c a = a.toNat := Nat.sub_add_cancel (offsetOf_le c a)

theorem blockStart_eq_mul : blockStart c a = c.blockSize * (a.toNat / c.blockSize) := by
  have h := blockStart_add_offset c a
  have := Nat.div_add_mod a.toNat c.blockSize
  rw [offsetOf_eq_mod] at h
  omega

/-- The tag is what is left of the block number when the index is taken off. -/
theorem tagOf_eq_div_div : tagOf c a = a.toNat / c.blockSize / c.numSets := by
  rw [tagOf_eq_div, Nat.div_div_eq_div_mul, Config.blockSize, Config.numSets, ← Nat.pow_add, Nat.add_comm]

/-- Tag and index together are the block number. -/
theorem tag_index_eq_block : c.numSets * tagOf c a + setIndex c a = a.toNat / c.blockSize := by
  rw [tagOf_eq_div_div, setIndex_eq_mod]; exact Nat.div_add_mod _ _

theorem tagOf_lt (h : c.Legal) : tagOf c a < 2 ^ c.tagBits := by
  rw [tagOf_eq_div]
  refine Nat.div_lt_of_lt_mul ?_
  rw [← Nat.pow_add, show c.indexBits + c.offsetBits + c.tagBits = 16 by have := h.1; simp only [addressWidth] at this; omega]
  exact a.isLt

/-- The block size times the number of blocks is the address space. -/
theorem blockSize_mul_blocks (h : c.Legal) : c.blockSize * 2 ^ (c.indexBits + c.tagBits) = addressSpace := by
  rw [Config.blockSize, ← Nat.pow_add, ← Nat.add_assoc, show c.offsetBits + c.indexBits + c.tagBits = 16 from h.1]

/-- The block of any address lies in the store (40_address_decoder.md R84). -/
theorem blockStart_add_blockSize_le (h : c.Legal) : blockStart c a + c.blockSize ≤ addressSpace := by
  have hB := blockSize_mul_blocks c h
  have hq : a.toNat / c.blockSize < 2 ^ (c.indexBits + c.tagBits) := by
    refine Nat.div_lt_of_lt_mul ?_
    rw [hB]; exact a.isLt
  rw [blockStart_eq_mul, ← hB]
  calc c.blockSize * (a.toNat / c.blockSize) + c.blockSize
      = c.blockSize * (a.toNat / c.blockSize + 1) := by ring
    _ ≤ _ := Nat.mul_le_mul_left _ hq

/-- Two addresses with one block number have one tag and one index. -/
theorem same_block {b : Addr} (h : a.toNat / c.blockSize = b.toNat / c.blockSize) :
    tagOf c a = tagOf c b ∧ setIndex c a = setIndex c b ∧ blockStart c a = blockStart c b := by
  rw [tagOf_eq_div_div, tagOf_eq_div_div, setIndex_eq_mod, setIndex_eq_mod, blockStart_eq_mul, blockStart_eq_mul, h]
  exact ⟨rfl, rfl, rfl⟩

/-- Being in the block of `a` is having its block number. -/
theorem in_block_iff (b : Nat) :
    (blockStart c a ≤ b ∧ b ≤ blockEnd c a) ↔ b / c.blockSize = a.toNat / c.blockSize := by
  have hB := Config.blockSize_pos c
  rw [blockEnd, blockStart_eq_mul]
  constructor
  · rintro ⟨h1, h2⟩
    refine Nat.div_eq_of_lt_le ?_ ?_ <;> rw [Nat.mul_comm]
    · exact h1
    · rw [Nat.mul_succ]; omega
  · intro h
    rw [← h]
    have := Nat.div_add_mod b c.blockSize
    have := Nat.mod_lt b hB
    omega

/-- Reassembly, with fields in range, is a sum: the three fields do not overlap (40_address_decoder.md R86). -/
theorem reassemble_eq_add {t i o : Nat} (hi : i < c.numSets) (ho : o < c.blockSize) :
    reassemble c t i o = c.blockSize * (c.numSets * t + i) + o := by
  have h1 : t <<< (c.indexBits + c.offsetBits) ||| i <<< c.offsetBits = (t <<< c.indexBits + i) <<< c.offsetBits := by
    rw [Nat.shiftLeft_add, ← Nat.shiftLeft_or_distrib, Nat.shiftLeft_add_eq_or_of_lt hi]
  rw [reassemble, h1, ← Nat.shiftLeft_add_eq_or_of_lt ho, Nat.shiftLeft_eq, Nat.shiftLeft_eq, Config.blockSize,
    Config.numSets]
  ring

/-- The first address of the block a line holds, from the line's tag and set (30_encoding.md R62). -/
theorem reassemble_block : reassemble c (tagOf c a) (setIndex c a) 0 = blockStart c a := by
  rw [reassemble_eq_add c (setIndex_lt c a) (Config.blockSize_pos c), tag_index_eq_block, blockStart_eq_mul, Nat.add_zero]

/-- An address is the sum of its fields, each in its place. -/
theorem toNat_eq_sum : a.toNat = c.blockSize * (c.numSets * tagOf c a + setIndex c a) + offsetOf c a := by
  rw [tag_index_eq_block, offsetOf_eq_mod, Nat.div_add_mod]

/-- The fields of a sum of fields in range. -/
theorem fields_of_sum {t i o : Nat} (hi : i < c.numSets) (ho : o < c.blockSize)
    (ha : a.toNat = c.blockSize * (c.numSets * t + i) + o) : tagOf c a = t ∧ setIndex c a = i ∧ offsetOf c a = o := by
  have hB := Config.blockSize_pos c
  have hN := Config.numSets_pos c
  have hq : a.toNat / c.blockSize = c.numSets * t + i := by
    rw [ha, Nat.mul_add_div hB, Nat.div_eq_of_lt ho, Nat.add_zero]
  refine ⟨?_, ?_, ?_⟩
  · rw [tagOf_eq_div_div, hq, Nat.mul_add_div hN, Nat.div_eq_of_lt hi, Nat.add_zero]
  · rw [setIndex_eq_mod, hq, Nat.mul_add_mod, Nat.mod_eq_of_lt hi]
  · rw [offsetOf_eq_mod, ha, Nat.mul_add_mod, Nat.mod_eq_of_lt ho]

/-- The three sizes make up the address space. -/
theorem sizes_mul (h : c.Legal) : c.blockSize * (c.numSets * 2 ^ c.tagBits) = addressSpace := by
  have := blockSize_mul_blocks c h
  rw [Nat.pow_add] at this; exact this

/-- Fields in range make an address in the address space. -/
theorem sum_lt (h : c.Legal) {t i o : Nat} (ht : t < 2 ^ c.tagBits) (hi : i < c.numSets) (ho : o < c.blockSize) :
    c.blockSize * (c.numSets * t + i) + o < addressSpace := by
  rw [← sizes_mul c h]
  calc c.blockSize * (c.numSets * t + i) + o < c.blockSize * (c.numSets * t + i) + c.blockSize := by omega
    _ = c.blockSize * (c.numSets * t + i + 1) := by ring
    _ ≤ c.blockSize * (c.numSets * 2 ^ c.tagBits) := by
      refine Nat.mul_le_mul_left _ ?_
      calc c.numSets * t + i + 1 ≤ c.numSets * t + c.numSets := by omega
        _ = c.numSets * (t + 1) := by ring
        _ ≤ _ := Nat.mul_le_mul_left _ ht

end Sys2Proof.Machine
end

