-- ==== Sys2Proof/Laws/Encoding.lean ====
section
/-! SUPPORT. The header word: its fields and its bytes are what it was made from, and it is what they make. -/
namespace Sys2Proof

variable (op : BitVec 4) (addr : Addr) (len : BitVec 20) (w : Header)

@[simp] theorem Header.op_make : (Header.make op addr len).op = op := by
  ext i hi
  simp only [Header.op, Header.make, BitVec.getElem_extractLsb', BitVec.getLsbD_append]
  rw [if_neg (by omega), if_neg (by omega)]
  simp [show 36 + i - 20 - 16 = i by omega, ← BitVec.getLsbD_eq_getElem]

@[simp] theorem Header.addr_make : (Header.make op addr len).addr = addr := by
  ext i hi
  simp only [Header.addr, Header.make, BitVec.getElem_extractLsb', BitVec.getLsbD_append]
  rw [if_neg (by omega), if_pos (by omega)]
  simp [show 20 + i - 20 = i by omega, ← BitVec.getLsbD_eq_getElem]

@[simp] theorem Header.len_make : (Header.make op addr len).len = len := by
  ext i hi
  simp only [Header.len, Header.make, BitVec.getElem_extractLsb', BitVec.getLsbD_append]
  rw [if_pos (by omega)]
  simp [← BitVec.getLsbD_eq_getElem]

/-- The three fields are all of the word. -/
theorem Header.make_fields : Header.make w.op w.addr w.len = w := by
  ext i hi
  simp only [Header.make, Header.op, Header.addr, Header.len, ← BitVec.getLsbD_eq_getElem,
    BitVec.getLsbD_append, BitVec.getLsbD_extractLsb']
  split
  · next h => simp [h]
  · split
    · next h1 h2 => simp [h2, show 20 + (i - 20) = i by omega]
    · next h1 h2 => simp [show i - 20 - 16 < 4 by omega, show 36 + (i - 20 - 16) = i by omega]

theorem Header.ofBytes_bytes :
    Header.ofBytes (w.extractLsb' 32 8) (w.extractLsb' 24 8) (w.extractLsb' 16 8) (w.extractLsb' 8 8) (w.extractLsb' 0 8) =
      w := by
  ext i hi
  simp only [Header.ofBytes, ← BitVec.getLsbD_eq_getElem, BitVec.getLsbD_append, BitVec.getLsbD_extractLsb']
  split
  · next h => simp [h]
  · split
    · next h1 h2 => simp [h2, show 8 + (i - 8) = i by omega]
    · split
      · next h1 h2 h3 => simp [h3, show 16 + (i - 8 - 8) = i by omega]
      · split
        · next h1 h2 h3 h4 => simp [h4, show 24 + (i - 8 - 8 - 8) = i by omega]
        · next h1 h2 h3 h4 => simp [show i - 8 - 8 - 8 - 8 < 8 by omega, show 32 + (i - 8 - 8 - 8 - 8) = i by omega]

theorem Header.bytes_ofBytes (b4 b3 b2 b1 b0 : Byte) :
    (Header.ofBytes b4 b3 b2 b1 b0).bytes = [b4, b3, b2, b1, b0] := by
  simp only [Header.bytes, List.cons.injEq, and_true]
  refine ⟨?_, ?_, ?_, ?_, ?_⟩ <;>
  · ext i hi
    simp only [Header.ofBytes, BitVec.getElem_extractLsb', BitVec.getLsbD_append]
    grind

@[simp] theorem Header.length_bytes : w.bytes.length = 5 := rfl

theorem encode_length (i : Instr) : (encode i).length = 5 + i.payload.length := by
  rw [encode, List.length_append, Header.length_bytes]

/-- A byte string of five bytes or more is a header and what follows it. -/
theorem exists_header (f : List Byte) (h : 5 ≤ f.length) : ∃ (w : Header) (rest : List Byte), f = w.bytes ++ rest := by
  match f, h with
  | b4 :: b3 :: b2 :: b1 :: b0 :: rest, _ =>
    exact ⟨Header.ofBytes b4 b3 b2 b1 b0, rest, by rw [Header.bytes_ofBytes]; rfl⟩

theorem decodePrefix_bytes (rest : List Byte) : decodePrefix (w.bytes ++ rest) = decodeWord w rest := by
  simp only [Header.bytes, List.cons_append, List.nil_append, decodePrefix, Header.ofBytes_bytes]

theorem decodePrefix_short (f : List Byte) (h : f.length < 5) : decodePrefix f = .error .headerShort := by
  match f, h with
  | [], _ => rfl
  | [_], _ => rfl
  | [_, _], _ => rfl
  | [_, _, _], _ => rfl
  | [_, _, _, _], _ => rfl
  | _ :: _ :: _ :: _ :: _ :: rest, h => simp only [List.length_cons] at h; omega

/-- A byte string spells a request when it is the request and no byte more. -/
theorem decode_eq_ok_iff (f : List Byte) (i : Instr) : decode f = .ok i ↔ decodePrefix f = .ok (i, []) := by
  unfold decode; split <;> simp_all

theorem decodeAddrOnly_eq_ok_iff (mk : Addr → Instr) (i : Instr) :
    decodeAddrOnly w mk = .ok i ↔ w.len = 0 ∧ i = mk w.addr := by
  unfold decodeAddrOnly; split <;> simp_all [eq_comm]

theorem decodeReset_eq_ok_iff (i : Instr) : decodeReset w = .ok i ↔ w.addr = 0 ∧ w.len = 0 ∧ i = .reset := by
  unfold decodeReset; split
  · simp_all
  · split <;> simp_all [eq_comm]

theorem Except.map_pair_eq_ok_iff {ε : Type} (e : Except ε Instr) (rest : List Byte) (i : Instr) (r : List Byte) :
    e.map (·, rest) = .ok (i, r) ↔ e = .ok i ∧ r = rest := by
  cases e <;> simp [Except.map, eq_comm]

/-- All that a header decodes to, by its operation code (30_encoding.md R66 to R68). -/
theorem decodeWord_eq_ok_iff (rest : List Byte) (i : Instr) (r : List Byte) :
    decodeWord w rest = .ok (i, r) ↔
      (w.op = 1 ∧ w.addr = 0 ∧ w.len = 0 ∧ i = .reset ∧ r = rest) ∨
      (w.op = 2 ∧ w.len.toNat ≤ rest.length ∧ i = .loadb w.addr (rest.take w.len.toNat) ∧ r = rest.drop w.len.toNat) ∨
      (w.op = 3 ∧ w.len = 0 ∧ i = .readb w.addr ∧ r = rest) ∨
      (w.op = 4 ∧ w.len = 0 ∧ i = .ishit w.addr ∧ r = rest) ∨
      (w.op = 5 ∧ w.len = 0 ∧ i = .lookup w.addr ∧ r = rest) ∨
      (w.op = 6 ∧ w.len = 0 ∧ i = .fill w.addr ∧ r = rest) := by
  have hop : ∀ n : Nat, n < 16 → (w.op = BitVec.ofNat 4 n ↔ w.op.toNat = n) := fun n hn => by
    rw [← BitVec.toNat_inj, BitVec.toNat_ofNat, Nat.mod_eq_of_lt hn]
  have h1 := hop 1 (by decide)
  have h2 := hop 2 (by decide)
  have h3 := hop 3 (by decide)
  have h4 := hop 4 (by decide)
  have h5 := hop 5 (by decide)
  have h6 := hop 6 (by decide)
  simp only [BitVec.ofNat_eq_ofNat, h1, h2, h3, h4, h5, h6]
  unfold decodeWord
  split
  case h_1 h => simp [h, Except.map_pair_eq_ok_iff, decodeReset_eq_ok_iff, and_assoc]
  case h_2 h =>
    split
    · next hlt => simp [h, Nat.not_le.2 hlt]
    · next hlt => simp [h, Nat.not_lt.1 hlt, eq_comm]
  case h_7 n1 n2 n3 n4 n5 n6 =>
    constructor
    · intro h; cases h
    · rintro (⟨h, -⟩ | ⟨h, -⟩ | ⟨h, -⟩ | ⟨h, -⟩ | ⟨h, -⟩ | ⟨h, -⟩)
      exacts [(n1 h).elim, (n2 h).elim, (n3 h).elim, (n4 h).elim, (n5 h).elim, (n6 h).elim]
  all_goals next h => simp [h, Except.map_pair_eq_ok_iff, decodeAddrOnly_eq_ok_iff, and_assoc]

end Sys2Proof
end

