-- ==== Sys2Proof/Laws/Memory.lean ====
section
/-! SUPPORT. The laws of the backing store: a read after a write, and that every write keeps the canonical form. -/
namespace Sys2Proof.Machine

@[simp] theorem Memory.read_nil (a : Nat) : Memory.read [] a = 0 := rfl

theorem Memory.read_cons (k : Nat) (v : Byte) (m : Memory) (a : Nat) :
    Memory.read ((k, v) :: m) a = if k = a then v else m.read a := rfl

theorem Memory.wf_cons (k : Nat) (v : Byte) (m : Memory) :
    Memory.wf ((k, v) :: m) = true ↔
      k < addressSpace ∧ v ≠ 0 ∧ (∀ c ∈ m, k < c.1) ∧ Memory.wf m = true := by
  simp [Memory.wf, and_assoc]

/-- An address below every listed one reads as unlisted. -/
theorem Memory.read_below (m : Memory) (a : Nat) (h : ∀ c ∈ m, a < c.1) : m.read a = 0 := by
  induction m with
  | nil => rfl
  | cons c m ih =>
    obtain ⟨k, v⟩ := c
    have hk : a < k := h (k, v) (by simp)
    rw [Memory.read_cons, if_neg (by omega)]
    exact ih fun c hc => h c (by simp [hc])

/-- A read after a write: the byte written at its address, every other byte as before. -/
theorem Memory.read_write (m : Memory) (hm : m.wf = true) (a b : Nat) (v : Byte) :
    (m.write a v).read b = if b = a then v else m.read b := by
  induction m with
  | nil =>
    unfold Memory.write
    split
    · next h => simp [h]
    · simp [Memory.read_cons, eq_comm]
  | cons c m ih =>
    obtain ⟨k, u⟩ := c
    obtain ⟨-, -, hlow, hwf⟩ := (Memory.wf_cons k u m).1 hm
    unfold Memory.write
    split
    · next hak =>
      have hbelow : Memory.read ((k, u) :: m) a = 0 := by
        refine Memory.read_below _ _ fun c hc => ?_
        rcases List.mem_cons.1 hc with rfl | hc
        · exact hak
        · exact lt_trans hak (hlow c hc)
      split
      · next hv =>
        split
        · next hba => subst hba; simp [hbelow, hv]
        · rfl
      · rw [Memory.read_cons]
        simp only [eq_comm]
    · split
      · next h1 h2 =>
        subst h2
        split
        · next hv =>
          split
          · next hba => subst hba; rw [Memory.read_below m b hlow, hv]
          · next hba => rw [Memory.read_cons, if_neg (fun h => hba h.symm)]
        · rw [Memory.read_cons, Memory.read_cons]
          by_cases hba : b = a
          · simp [hba]
          · rw [if_neg fun h => hba h.symm, if_neg hba, if_neg fun h => hba h.symm]
      · next h1 h2 =>
        rw [Memory.read_cons, Memory.read_cons, ih hwf]
        by_cases hkb : k = b
        · subst hkb; rw [if_pos rfl, if_neg fun h => h2 h.symm, if_pos rfl]
        · simp [hkb]

theorem Memory.mem_write (m : Memory) (a : Nat) (v : Byte) (c : Host.Cell) (h : c ∈ m.write a v) :
    c = (a, v) ∨ c ∈ m := by
  induction m with
  | nil =>
    unfold Memory.write at h
    split at h <;> simp_all
  | cons d m ih =>
    obtain ⟨k, u⟩ := d
    unfold Memory.write at h
    split at h
    · split at h
      · exact .inr h
      · exact (List.mem_cons.1 h).imp id id
    · split at h
      · split at h
        · exact .inr (List.mem_cons_of_mem _ h)
        · exact (List.mem_cons.1 h).imp id (List.mem_cons_of_mem _)
      · rcases List.mem_cons.1 h with rfl | h
        · exact .inr (by simp)
        · exact (ih h).imp id (List.mem_cons_of_mem _)

/-- A write inside the store keeps the canonical form. -/
theorem Memory.write_wf (m : Memory) (hm : m.wf = true) (a : Nat) (ha : a < addressSpace) (v : Byte) :
    (m.write a v).wf = true := by
  induction m with
  | nil =>
    unfold Memory.write
    split
    · rfl
    · next h => exact (Memory.wf_cons _ _ _).2 ⟨ha, h, by simp, rfl⟩
  | cons c m ih =>
    obtain ⟨k, u⟩ := c
    obtain ⟨hk, hu, hlow, hwf⟩ := (Memory.wf_cons k u m).1 hm
    unfold Memory.write
    split
    · next hak =>
      split
      · exact hm
      · next hv =>
        refine (Memory.wf_cons _ _ _).2 ⟨ha, hv, fun c hc => ?_, hm⟩
        rcases List.mem_cons.1 hc with rfl | hc
        · exact hak
        · exact lt_trans hak (hlow c hc)
    · next hak =>
      split
      · next hek =>
        subst hek
        split
        · exact hwf
        · next hv => exact (Memory.wf_cons _ _ _).2 ⟨ha, hv, hlow, hwf⟩
      · next hek =>
        refine (Memory.wf_cons _ _ _).2 ⟨hk, hu, fun c hc => ?_, ih hwf⟩
        rcases Memory.mem_write m a v c hc with rfl | hc
        · simp only; omega
        · exact hlow c hc

/-- The bytes after a run of writes: the written ones in place, every other as before. -/
theorem Memory.read_writeAll (m : Memory) (hm : m.wf = true) (a : Nat) (v : List Byte)
    (ha : a + v.length ≤ addressSpace) (b : Nat) :
    (m.writeAll a v).read b = if a ≤ b ∧ b < a + v.length then v.getD (b - a) 0 else m.read b := by
  induction v generalizing m a with
  | nil => simp only [Memory.writeAll, List.length_nil, Nat.add_zero]; rw [if_neg (by omega)]
  | cons u v ih =>
    simp only [List.length_cons] at ha ⊢
    rw [Memory.writeAll, ih _ (Memory.write_wf m hm a (by omega) u) _ (by omega), Memory.read_write m hm]
    by_cases hb : b = a
    · subst hb
      rw [if_neg (by omega), if_pos rfl, if_pos (by omega)]; simp
    · by_cases hin : a + 1 ≤ b ∧ b < a + 1 + v.length
      · rw [if_pos hin, if_pos (by omega)]
        obtain ⟨d, rfl⟩ : ∃ d, b = a + 1 + d := ⟨b - (a + 1), by omega⟩
        rw [show a + 1 + d - (a + 1) = d by omega, show a + 1 + d - a = d + 1 by omega]
        rfl
      · rw [if_neg hin, if_neg hb, if_neg (by omega)]

theorem Memory.writeAll_wf (m : Memory) (hm : m.wf = true) (a : Nat) (v : List Byte)
    (ha : a + v.length ≤ addressSpace) : (m.writeAll a v).wf = true := by
  induction v generalizing m a with
  | nil => exact hm
  | cons u v ih =>
    simp only [List.length_cons] at ha
    exact ih _ (Memory.write_wf m hm a (by omega) u) _ (by omega)

/-- Equal bytes, equal data: a canonical memory is determined by what it reads as. -/
theorem Memory.ext_read (m n : Memory) (hm : m.wf = true) (hn : n.wf = true)
    (h : ∀ a, m.read a = n.read a) : m = n := by
  induction m generalizing n with
  | nil =>
    cases n with
    | nil => rfl
    | cons c n =>
      obtain ⟨k, v⟩ := c
      have := h k
      rw [Memory.read_nil, Memory.read_cons, if_pos rfl] at this
      exact absurd this.symm ((Memory.wf_cons k v n).1 hn).2.1
  | cons c m ih =>
    obtain ⟨k, v⟩ := c
    obtain ⟨-, hv, hlow, hwf⟩ := (Memory.wf_cons k v m).1 hm
    cases n with
    | nil =>
      have := h k
      rw [Memory.read_nil, Memory.read_cons, if_pos rfl] at this
      exact absurd this hv
    | cons d n =>
      obtain ⟨j, u⟩ := d
      obtain ⟨-, hu, hlow', hwf'⟩ := (Memory.wf_cons j u n).1 hn
      have hkj : k = j := by
        rcases lt_trichotomy k j with hlt | heq | hgt
        · have := h k
          rw [Memory.read_cons, if_pos rfl, Memory.read_cons, if_neg (by omega),
            Memory.read_below n k fun c hc => lt_trans hlt (hlow' c hc)] at this
          exact absurd this hv
        · exact heq
        · have := h j
          rw [Memory.read_cons, if_neg (by omega), Memory.read_below m j fun c hc => lt_trans hgt (hlow c hc),
            Memory.read_cons, if_pos rfl] at this
          exact absurd this.symm hu
      subst hkj
      have hvu : v = u := by simpa [Memory.read_cons] using h k
      subst hvu
      refine congrArg _ (ih n hwf hwf' fun a => ?_)
      by_cases ha : k = a
      · subst ha
        rw [Memory.read_below m k hlow, Memory.read_below n k hlow']
      · simpa [Memory.read_cons, ha] using h a

/-- All that `MemRead` can answer. -/
theorem memRead_eq_some (m : Memory) (a n : Nat) (v : List Byte) :
    memRead m a n = some v ↔ a + n ≤ addressSpace ∧ v = (List.range n).map fun k => m.read (a + k) := by
  unfold memRead
  split <;> simp_all [eq_comm]

theorem memRead_inside (m : Memory) (a n : Nat) (h : a + n ≤ addressSpace) :
    memRead m a n = some ((List.range n).map fun k => m.read (a + k)) := if_pos h

/-- All that `MemWrite` can answer. -/
theorem memWrite_eq_some (m m' : Memory) (a : Nat) (v : List Byte) :
    memWrite m a v = some m' ↔ a + v.length ≤ addressSpace ∧ m' = m.writeAll a v := by
  unfold memWrite
  split <;> simp_all [eq_comm]

theorem memWrite_inside (m : Memory) (a : Nat) (v : List Byte) (h : a + v.length ≤ addressSpace) :
    memWrite m a v = some (m.writeAll a v) := if_pos h

/-- `MemWrite` keeps the canonical form. -/
theorem memWrite_wf (m m' : Memory) (hm : m.wf = true) (a : Nat) (v : List Byte) (h : memWrite m a v = some m') :
    m'.wf = true := by
  obtain ⟨ha, rfl⟩ := (memWrite_eq_some m m' a v).1 h
  exact Memory.writeAll_wf m hm a v ha

@[simp] theorem resetStore_wf : Memory.wf [] = true := rfl

end Sys2Proof.Machine
end

