-- ==== Sys2Proof/Laws/State.lean ====
section
/-! SUPPORT. One lemma per field per update of State: what the update leaves and what it writes. -/
namespace Sys2Proof.Machine

variable (s : State)

@[simp] theorem withLine_cfg (x w : Nat) (l : Line) : (withLine s x w l).cfg = s.cfg := rfl
@[simp] theorem withLine_phase (x w : Nat) (l : Line) : (withLine s x w l).phase = s.phase := rfl
@[simp] theorem withLine_lines (x w : Nat) (l : Line) : (withLine s x w l).lines = s.lines.set x ((setAt s x).set w l) := rfl
@[simp] theorem withLine_bs (x w : Nat) (l : Line) : (withLine s x w l).bs = s.bs := rfl
@[simp] theorem withLine_rr (x w : Nat) (l : Line) : (withLine s x w l).rr = s.rr := rfl
@[simp] theorem withLine_lru (x w : Nat) (l : Line) : (withLine s x w l).lru = s.lru := rfl
@[simp] theorem withLine_pending (x w : Nat) (l : Line) : (withLine s x w l).pending = s.pending := rfl
@[simp] theorem withLine_response (x w : Nat) (l : Line) : (withLine s x w l).response = s.response := rfl

@[simp] theorem withRr_cfg (x r : Nat) : (withRr s x r).cfg = s.cfg := rfl
@[simp] theorem withRr_phase (x r : Nat) : (withRr s x r).phase = s.phase := rfl
@[simp] theorem withRr_lines (x r : Nat) : (withRr s x r).lines = s.lines := rfl
@[simp] theorem withRr_bs (x r : Nat) : (withRr s x r).bs = s.bs := rfl
@[simp] theorem withRr_rr (x r : Nat) : (withRr s x r).rr = s.rr.set x r := rfl
@[simp] theorem withRr_lru (x r : Nat) : (withRr s x r).lru = s.lru := rfl
@[simp] theorem withRr_pending (x r : Nat) : (withRr s x r).pending = s.pending := rfl
@[simp] theorem withRr_response (x r : Nat) : (withRr s x r).response = s.response := rfl

@[simp] theorem withLru_cfg (x : Nat) (o : List Nat) : (withLru s x o).cfg = s.cfg := rfl
@[simp] theorem withLru_phase (x : Nat) (o : List Nat) : (withLru s x o).phase = s.phase := rfl
@[simp] theorem withLru_lines (x : Nat) (o : List Nat) : (withLru s x o).lines = s.lines := rfl
@[simp] theorem withLru_bs (x : Nat) (o : List Nat) : (withLru s x o).bs = s.bs := rfl
@[simp] theorem withLru_rr (x : Nat) (o : List Nat) : (withLru s x o).rr = s.rr := rfl
@[simp] theorem withLru_lru (x : Nat) (o : List Nat) : (withLru s x o).lru = s.lru.set x o := rfl
@[simp] theorem withLru_pending (x : Nat) (o : List Nat) : (withLru s x o).pending = s.pending := rfl
@[simp] theorem withLru_response (x : Nat) (o : List Nat) : (withLru s x o).response = s.response := rfl

@[simp] theorem withStore_cfg (m : Memory) : (withStore s m).cfg = s.cfg := rfl
@[simp] theorem withStore_phase (m : Memory) : (withStore s m).phase = s.phase := rfl
@[simp] theorem withStore_lines (m : Memory) : (withStore s m).lines = s.lines := rfl
@[simp] theorem withStore_bs (m : Memory) : (withStore s m).bs = m := rfl
@[simp] theorem withStore_rr (m : Memory) : (withStore s m).rr = s.rr := rfl
@[simp] theorem withStore_lru (m : Memory) : (withStore s m).lru = s.lru := rfl
@[simp] theorem withStore_pending (m : Memory) : (withStore s m).pending = s.pending := rfl
@[simp] theorem withStore_response (m : Memory) : (withStore s m).response = s.response := rfl

@[simp] theorem withPending_cfg (fs : List (List Byte)) : (withPending s fs).cfg = s.cfg := rfl
@[simp] theorem withPending_phase (fs : List (List Byte)) : (withPending s fs).phase = s.phase := rfl
@[simp] theorem withPending_lines (fs : List (List Byte)) : (withPending s fs).lines = s.lines := rfl
@[simp] theorem withPending_bs (fs : List (List Byte)) : (withPending s fs).bs = s.bs := rfl
@[simp] theorem withPending_rr (fs : List (List Byte)) : (withPending s fs).rr = s.rr := rfl
@[simp] theorem withPending_lru (fs : List (List Byte)) : (withPending s fs).lru = s.lru := rfl
@[simp] theorem withPending_pending (fs : List (List Byte)) : (withPending s fs).pending = fs := rfl
@[simp] theorem withPending_response (fs : List (List Byte)) : (withPending s fs).response = s.response := rfl

@[simp] theorem withResponse_cfg (r : Response) : (withResponse s r).cfg = s.cfg := rfl
@[simp] theorem withResponse_phase (r : Response) : (withResponse s r).phase = s.phase := rfl
@[simp] theorem withResponse_lines (r : Response) : (withResponse s r).lines = s.lines := rfl
@[simp] theorem withResponse_bs (r : Response) : (withResponse s r).bs = s.bs := rfl
@[simp] theorem withResponse_rr (r : Response) : (withResponse s r).rr = s.rr := rfl
@[simp] theorem withResponse_lru (r : Response) : (withResponse s r).lru = s.lru := rfl
@[simp] theorem withResponse_pending (r : Response) : (withResponse s r).pending = s.pending := rfl
@[simp] theorem withResponse_response (r : Response) : (withResponse s r).response = some r := rfl

@[simp] theorem resetAll_cfg : (resetAll s).cfg = s.cfg := rfl
@[simp] theorem resetAll_phase : (resetAll s).phase = s.phase := rfl
@[simp] theorem resetAll_lines : (resetAll s).lines = resetLines s.cfg := rfl
@[simp] theorem resetAll_bs : (resetAll s).bs = resetStore := rfl
@[simp] theorem resetAll_rr : (resetAll s).rr = resetRr s.cfg := rfl
@[simp] theorem resetAll_lru : (resetAll s).lru = resetLru s.cfg := rfl
@[simp] theorem resetAll_pending : (resetAll s).pending = s.pending := rfl
@[simp] theorem resetAll_response : (resetAll s).response = s.response := rfl

/-! Reading a line, a pointer or a recency list does not see the updates of other components. -/

@[simp] theorem setAt_withRr (x r : Nat) (y : Nat) : setAt (withRr s x r) y = setAt s y := rfl
@[simp] theorem lineAt_withRr (x r : Nat) (y v : Nat) : lineAt (withRr s x r) y v = lineAt s y v := rfl
@[simp] theorem lookup_withRr (x r : Nat) (a : Addr) : lookup (withRr s x r) a = lookup s a := rfl
@[simp] theorem firstInvalid_withRr (x r : Nat) (y : Nat) : firstInvalid (withRr s x r) y = firstInvalid s y := rfl
@[simp] theorem byteAt_withRr (x r : Nat) (a : Addr) (v : Nat) : byteAt (withRr s x r) a v = byteAt s a v := rfl
@[simp] theorem setAt_withLru (x : Nat) (o : List Nat) (y : Nat) : setAt (withLru s x o) y = setAt s y := rfl
@[simp] theorem lineAt_withLru (x : Nat) (o : List Nat) (y v : Nat) : lineAt (withLru s x o) y v = lineAt s y v := rfl
@[simp] theorem lookup_withLru (x : Nat) (o : List Nat) (a : Addr) : lookup (withLru s x o) a = lookup s a := rfl
@[simp] theorem firstInvalid_withLru (x : Nat) (o : List Nat) (y : Nat) : firstInvalid (withLru s x o) y = firstInvalid s y := rfl
@[simp] theorem byteAt_withLru (x : Nat) (o : List Nat) (a : Addr) (v : Nat) : byteAt (withLru s x o) a v = byteAt s a v := rfl
@[simp] theorem setAt_withStore (m : Memory) (y : Nat) : setAt (withStore s m) y = setAt s y := rfl
@[simp] theorem lineAt_withStore (m : Memory) (y v : Nat) : lineAt (withStore s m) y v = lineAt s y v := rfl
@[simp] theorem lookup_withStore (m : Memory) (a : Addr) : lookup (withStore s m) a = lookup s a := rfl
@[simp] theorem firstInvalid_withStore (m : Memory) (y : Nat) : firstInvalid (withStore s m) y = firstInvalid s y := rfl
@[simp] theorem byteAt_withStore (m : Memory) (a : Addr) (v : Nat) : byteAt (withStore s m) a v = byteAt s a v := rfl
@[simp] theorem setAt_withPending (fs : List (List Byte)) (y : Nat) : setAt (withPending s fs) y = setAt s y := rfl
@[simp] theorem lineAt_withPending (fs : List (List Byte)) (y v : Nat) : lineAt (withPending s fs) y v = lineAt s y v := rfl
@[simp] theorem lookup_withPending (fs : List (List Byte)) (a : Addr) : lookup (withPending s fs) a = lookup s a := rfl
@[simp] theorem firstInvalid_withPending (fs : List (List Byte)) (y : Nat) : firstInvalid (withPending s fs) y = firstInvalid s y := rfl
@[simp] theorem byteAt_withPending (fs : List (List Byte)) (a : Addr) (v : Nat) : byteAt (withPending s fs) a v = byteAt s a v := rfl
@[simp] theorem setAt_withResponse (r : Response) (y : Nat) : setAt (withResponse s r) y = setAt s y := rfl
@[simp] theorem lineAt_withResponse (r : Response) (y v : Nat) : lineAt (withResponse s r) y v = lineAt s y v := rfl
@[simp] theorem lookup_withResponse (r : Response) (a : Addr) : lookup (withResponse s r) a = lookup s a := rfl
@[simp] theorem firstInvalid_withResponse (r : Response) (y : Nat) : firstInvalid (withResponse s r) y = firstInvalid s y := rfl
@[simp] theorem byteAt_withResponse (r : Response) (a : Addr) (v : Nat) : byteAt (withResponse s r) a v = byteAt s a v := rfl
@[simp] theorem rrAt_withLine (x w : Nat) (l : Line) (y : Nat) : rrAt (withLine s x w l) y = rrAt s y := rfl
@[simp] theorem rrAt_withLru (x : Nat) (o : List Nat) (y : Nat) : rrAt (withLru s x o) y = rrAt s y := rfl
@[simp] theorem rrAt_withStore (m : Memory) (y : Nat) : rrAt (withStore s m) y = rrAt s y := rfl
@[simp] theorem rrAt_withPending (fs : List (List Byte)) (y : Nat) : rrAt (withPending s fs) y = rrAt s y := rfl
@[simp] theorem rrAt_withResponse (r : Response) (y : Nat) : rrAt (withResponse s r) y = rrAt s y := rfl
@[simp] theorem lruAt_withLine (x w : Nat) (l : Line) (y : Nat) : lruAt (withLine s x w l) y = lruAt s y := rfl
@[simp] theorem lruAt_withRr (x r : Nat) (y : Nat) : lruAt (withRr s x r) y = lruAt s y := rfl
@[simp] theorem lruAt_withStore (m : Memory) (y : Nat) : lruAt (withStore s m) y = lruAt s y := rfl
@[simp] theorem lruAt_withPending (fs : List (List Byte)) (y : Nat) : lruAt (withPending s fs) y = lruAt s y := rfl
@[simp] theorem lruAt_withResponse (r : Response) (y : Nat) : lruAt (withResponse s r) y = lruAt s y := rfl

/-! `Touch` writes `lru` alone, and under FIFO nothing. -/

theorem touch_fifo (h : s.cfg.policy = .fifo) (x w : Nat) : touch s x w = s := by simp [touch, h]

theorem touch_lru (h : s.cfg.policy = .lru) (x w : Nat) :
    touch s x w = withLru s x (w :: (lruAt s x).filter (· ≠ w)) := by simp [touch, h]

@[simp] theorem touch_cfg (x w : Nat) : (touch s x w).cfg = s.cfg := by
  unfold touch; split <;> rfl
@[simp] theorem touch_phase (x w : Nat) : (touch s x w).phase = s.phase := by
  unfold touch; split <;> rfl
@[simp] theorem touch_lines (x w : Nat) : (touch s x w).lines = s.lines := by
  unfold touch; split <;> rfl
@[simp] theorem touch_bs (x w : Nat) : (touch s x w).bs = s.bs := by
  unfold touch; split <;> rfl
@[simp] theorem touch_rr (x w : Nat) : (touch s x w).rr = s.rr := by
  unfold touch; split <;> rfl
@[simp] theorem touch_pending (x w : Nat) : (touch s x w).pending = s.pending := by
  unfold touch; split <;> rfl
@[simp] theorem touch_response (x w : Nat) : (touch s x w).response = s.response := by
  unfold touch; split <;> rfl
@[simp] theorem setAt_touch (x w : Nat) (y : Nat) : setAt (touch s x w) y = setAt s y := by
  unfold touch; split <;> rfl
@[simp] theorem lineAt_touch (x w : Nat) (y v : Nat) : lineAt (touch s x w) y v = lineAt s y v := by
  unfold touch; split <;> rfl
@[simp] theorem lookup_touch (x w : Nat) (a : Addr) : lookup (touch s x w) a = lookup s a := by
  unfold touch; split <;> rfl
@[simp] theorem firstInvalid_touch (x w : Nat) (y : Nat) : firstInvalid (touch s x w) y = firstInvalid s y := by
  unfold touch; split <;> rfl
@[simp] theorem byteAt_touch (x w : Nat) (a : Addr) (v : Nat) : byteAt (touch s x w) a v = byteAt s a v := by
  unfold touch; split <;> rfl
@[simp] theorem rrAt_touch (x w : Nat) (y : Nat) : rrAt (touch s x w) y = rrAt s y := by
  unfold touch; split <;> rfl

/-! The victim selector writes `rr` alone. -/

@[simp] theorem selectVictim_cfg (x : Nat) : (selectVictim s x).2.cfg = s.cfg := by
  unfold selectVictim; split <;> try rfl
  split <;> rfl
@[simp] theorem selectVictim_phase (x : Nat) : (selectVictim s x).2.phase = s.phase := by
  unfold selectVictim; split <;> try rfl
  split <;> rfl
@[simp] theorem selectVictim_lines (x : Nat) : (selectVictim s x).2.lines = s.lines := by
  unfold selectVictim; split <;> try rfl
  split <;> rfl
@[simp] theorem selectVictim_bs (x : Nat) : (selectVictim s x).2.bs = s.bs := by
  unfold selectVictim; split <;> try rfl
  split <;> rfl
@[simp] theorem selectVictim_lru (x : Nat) : (selectVictim s x).2.lru = s.lru := by
  unfold selectVictim; split <;> try rfl
  split <;> rfl
@[simp] theorem selectVictim_pending (x : Nat) : (selectVictim s x).2.pending = s.pending := by
  unfold selectVictim; split <;> try rfl
  split <;> rfl
@[simp] theorem selectVictim_response (x : Nat) : (selectVictim s x).2.response = s.response := by
  unfold selectVictim; split <;> try rfl
  split <;> rfl
@[simp] theorem setAt_selectVictim (x : Nat) (y : Nat) : setAt (selectVictim s x).2 y = setAt s y := by
  unfold selectVictim; split <;> try rfl
  split <;> rfl
@[simp] theorem lineAt_selectVictim (x : Nat) (y v : Nat) : lineAt (selectVictim s x).2 y v = lineAt s y v := by
  unfold selectVictim; split <;> try rfl
  split <;> rfl
@[simp] theorem lookup_selectVictim (x : Nat) (a : Addr) : lookup (selectVictim s x).2 a = lookup s a := by
  unfold selectVictim; split <;> try rfl
  split <;> rfl
@[simp] theorem firstInvalid_selectVictim (x : Nat) (y : Nat) : firstInvalid (selectVictim s x).2 y = firstInvalid s y := by
  unfold selectVictim; split <;> try rfl
  split <;> rfl
@[simp] theorem lruAt_selectVictim (x : Nat) (y : Nat) : lruAt (selectVictim s x).2 y = lruAt s y := by
  unfold selectVictim; split <;> try rfl
  split <;> rfl

end Sys2Proof.Machine
end

