-- ==== Sys2Proof/Laws/Ops.lean ====
section
/-! SUPPORT. One lemma for each shared operation that says all it can do; the provers cite these instead of unfolding. -/
namespace Sys2Proof.Machine

/-! ## Lines -/

theorem setAt_withLine (s : State) (x w : Nat) (l : Line) (y : Nat) :
    setAt (withLine s x w l) y = if y = x then (setAt s x).set w l else setAt s y := by
  simp only [setAt, withLine_lines, List.getD_eq_getElem?_getD]
  by_cases h : y = x
  · subst h
    by_cases hy : y < s.lines.length
    · simp [hy]
    · simp [hy]
  · rw [List.getElem?_set_ne (fun e => h e.symm), if_neg h]

theorem length_setAt_withLine (s : State) (x w : Nat) (l : Line) (y : Nat) :
    (setAt (withLine s x w l) y).length = (setAt s y).length := by
  rw [setAt_withLine]; split
  · next h => rw [h, List.length_set]
  · rfl

theorem lineAt_withLine_same (s : State) (x w : Nat) (l : Line) (h : w < (setAt s x).length) :
    lineAt (withLine s x w l) x w = l := by
  simp [lineAt, setAt_withLine, List.getD_eq_getElem?_getD, h]

theorem lineAt_withLine_other (s : State) (x w : Nat) (l : Line) (y v : Nat) (h : (y, v) ≠ (x, w)) :
    lineAt (withLine s x w l) y v = lineAt s y v := by
  rw [lineAt, lineAt, setAt_withLine]
  split
  · next hy =>
    subst hy
    have hv : w ≠ v := fun e => h (by rw [e])
    simp [List.getD_eq_getElem?_getD, List.getElem?_set_ne hv]
  · rfl

theorem lineAt_eq_getElem (s : State) (x w : Nat) (h : w < (setAt s x).length) : lineAt s x w = (setAt s x)[w] :=
  List.getD_eq_getElem _ _ h

theorem lineAt_mem (s : State) (x w : Nat) (h : w < (setAt s x).length) : lineAt s x w ∈ setAt s x := by
  rw [lineAt_eq_getElem s x w h]; exact List.getElem_mem h

/-! ## Shape -/

theorem State.Shaped.setAt_mem {s : State} (hs : s.Shaped) {x : Nat} (hx : x < s.cfg.numSets) : setAt s x ∈ s.lines := by
  have hx' : x < s.lines.length := by rw [hs.sets]; exact hx
  rw [setAt, List.getD_eq_getElem _ _ hx']
  exact List.getElem_mem hx'

theorem State.Shaped.length_setAt {s : State} (hs : s.Shaped) {x : Nat} (hx : x < s.cfg.numSets) :
    (setAt s x).length = s.cfg.associativity := hs.ways _ (hs.setAt_mem hx)

theorem State.Shaped.length_data {s : State} (hs : s.Shaped) {x w : Nat} (hx : x < s.cfg.numSets)
    (hw : w < s.cfg.associativity) : (lineAt s x w).data.length = s.cfg.blockSize :=
  hs.data _ (hs.setAt_mem hx) _ (lineAt_mem s x w (by rw [hs.length_setAt hx]; exact hw))

theorem State.Shaped.tag_lt {s : State} (hs : s.Shaped) {x w : Nat} (hx : x < s.cfg.numSets)
    (hw : w < s.cfg.associativity) : (lineAt s x w).tag < 2 ^ s.cfg.tagBits :=
  hs.tags _ (hs.setAt_mem hx) _ (lineAt_mem s x w (by rw [hs.length_setAt hx]; exact hw))

theorem State.Shaped.rrAt_lt {s : State} (hs : s.Shaped) (hp : s.cfg.policy = .fifo) {x : Nat} (hx : x < s.cfg.numSets) :
    rrAt s x < s.cfg.associativity := by
  obtain ⟨hl, hr⟩ := hs.rrFifo hp
  have hx' : x < s.rr.length := by rw [hl]; exact hx
  rw [rrAt, List.getD_eq_getElem _ _ hx']
  exact hr _ (List.getElem_mem hx')

theorem State.Shaped.lruAt_perm {s : State} (hs : s.Shaped) (hp : s.cfg.policy = .lru) {x : Nat} (hx : x < s.cfg.numSets) :
    (lruAt s x).Perm (List.range s.cfg.associativity) := by
  obtain ⟨hl, hr⟩ := hs.lruLru hp
  have hx' : x < s.lru.length := by rw [hl]; exact hx
  rw [lruAt, List.getD_eq_getElem _ _ hx']
  exact hr _ (List.getElem_mem hx')

/-- The response and the requests still to run are no part of the shape. -/
theorem State.Shaped.withResponse {s : State} (hs : s.Shaped) (r : Response) : (withResponse s r).Shaped :=
  ⟨hs.legal, hs.phase, hs.sets, hs.ways, hs.tags, hs.data, hs.store, hs.rrFifo, hs.lruFifo, hs.lruLru, hs.rrLru⟩

theorem State.Shaped.withPending {s : State} (hs : s.Shaped) (fs : List (List Byte)) : (withPending s fs).Shaped :=
  ⟨hs.legal, hs.phase, hs.sets, hs.ways, hs.tags, hs.data, hs.store, hs.rrFifo, hs.lruFifo, hs.lruLru, hs.rrLru⟩

theorem State.Shaped.withStore {s : State} (hs : s.Shaped) {m : Memory} (hm : m.wf = true) : (withStore s m).Shaped :=
  ⟨hs.legal, hs.phase, hs.sets, hs.ways, hs.tags, hs.data, hm, hs.rrFifo, hs.lruFifo, hs.lruLru, hs.rrLru⟩

theorem State.Shaped.withRr {s : State} (hs : s.Shaped) (x : Nat) {r : Nat} (hr : r < s.cfg.associativity) :
    (withRr s x r).Shaped where
  legal := hs.legal
  phase := hs.phase
  sets := hs.sets
  ways := hs.ways
  tags := hs.tags
  data := hs.data
  store := hs.store
  rrFifo hp := by
    obtain ⟨hl, h⟩ := hs.rrFifo hp
    refine ⟨by rw [withRr_rr, List.length_set]; exact hl, fun q hq => ?_⟩
    rcases List.mem_or_eq_of_mem_set hq with hq | rfl
    · exact h q hq
    · exact hr
  lruFifo := hs.lruFifo
  lruLru := hs.lruLru
  rrLru hp := by rw [withRr_rr, hs.rrLru hp]; rfl

theorem State.Shaped.withLru {s : State} (hs : s.Shaped) (x : Nat) {o : List Nat}
    (ho : o.Perm (List.range s.cfg.associativity)) : (withLru s x o).Shaped where
  legal := hs.legal
  phase := hs.phase
  sets := hs.sets
  ways := hs.ways
  tags := hs.tags
  data := hs.data
  store := hs.store
  rrFifo := hs.rrFifo
  lruFifo hp := by rw [withLru_lru, hs.lruFifo hp]; rfl
  lruLru hp := by
    obtain ⟨hl, h⟩ := hs.lruLru hp
    refine ⟨by rw [withLru_lru, List.length_set]; exact hl, fun q hq => ?_⟩
    rcases List.mem_or_eq_of_mem_set hq with hq | rfl
    · exact h q hq
    · exact ho
  rrLru := hs.rrLru

theorem State.Shaped.withLine {s : State} (hs : s.Shaped) {x w : Nat} (hx : x < s.cfg.numSets) {l : Line}
    (ht : l.tag < 2 ^ s.cfg.tagBits) (hd : l.data.length = s.cfg.blockSize) : (withLine s x w l).Shaped where
  legal := hs.legal
  phase := hs.phase
  sets := by rw [withLine_lines, List.length_set]; exact hs.sets
  ways ls hls := by
    rcases List.mem_or_eq_of_mem_set hls with h | rfl
    · exact hs.ways ls h
    · rw [List.length_set]; exact hs.length_setAt hx
  tags ls hls k hk := by
    rcases List.mem_or_eq_of_mem_set hls with h | rfl
    · exact hs.tags ls h k hk
    · rcases List.mem_or_eq_of_mem_set hk with h | rfl
      · exact hs.tags _ (hs.setAt_mem hx) k h
      · exact ht
  data ls hls k hk := by
    rcases List.mem_or_eq_of_mem_set hls with h | rfl
    · exact hs.data ls h k hk
    · rcases List.mem_or_eq_of_mem_set hk with h | rfl
      · exact hs.data _ (hs.setAt_mem hx) k h
      · exact hd
  store := hs.store
  rrFifo := hs.rrFifo
  lruFifo := hs.lruFifo
  lruLru := hs.lruLru
  rrLru := hs.rrLru

/-- `movedToFront` of a listed way is a rearrangement (43_replacement.md R116: "always holds each way once"). -/
theorem movedToFront_perm {o : List Nat} {n w : Nat} (ho : o.Perm (List.range n)) (hw : w < n) :
    (movedToFront w o).Perm (List.range n) := by
  have hnd : o.Nodup := ho.nodup_iff.2 List.nodup_range
  have hmem : w ∈ o := ho.mem_iff.2 (List.mem_range.2 hw)
  refine List.Perm.trans ?_ ho
  rw [movedToFront, show (o.filter (· ≠ w)) = o.erase w by
    rw [hnd.erase_eq_filter]; exact List.filter_congr fun a _ => by by_cases h : a = w <;> simp [h]]
  exact (List.perm_cons_erase hmem).symm

theorem State.Shaped.touch {s : State} (hs : s.Shaped) {x w : Nat} (hx : x < s.cfg.numSets) (hw : w < s.cfg.associativity) :
    (touch s x w).Shaped := by
  cases hp : s.cfg.policy with
  | fifo => rw [touch_fifo s hp]; exact hs
  | lru => rw [touch_lru s hp]; exact hs.withLru x (movedToFront_perm (hs.lruAt_perm hp hx) hw)

/-- All that `Touch` does to the replacement state. -/
theorem touch_touchedOnly (s : State) (x w : Nat) : TouchedOnly s (touch s x w) x w := by
  unfold TouchedOnly
  cases hp : s.cfg.policy with
  | fifo => rw [touch_fifo s hp]
  | lru => rw [touch_lru s hp]; rfl

/-! ## Lookup -/

/-- A hit is in the lowest matching way (41_lookup.md R91). -/
theorem lookup_eq_some_iff {s : State} {a : Addr} (hl : (setAt s (setIndex s.cfg a)).length = s.cfg.associativity)
    (w : Nat) : lookup s a = some w ↔ FirstMatch s a w := by
  rw [lookup, List.findIdx?_eq_some_iff_getElem, FirstMatch]
  constructor
  · rintro ⟨h, hm, hlow⟩
    refine ⟨hl ▸ h, ?_, fun v hv => ?_⟩
    · rw [lineAt_eq_getElem _ _ _ h]; simpa [lineMatches] using hm
    · rw [lineAt_eq_getElem _ _ _ (hv.trans h)]; simpa [lineMatches] using hlow v hv
  · rintro ⟨h, hm, hlow⟩
    have h' : w < (setAt s (setIndex s.cfg a)).length := hl ▸ h
    refine ⟨h', ?_, fun v hv => ?_⟩
    · rw [lineAt_eq_getElem _ _ _ h'] at hm; simpa [lineMatches] using hm
    · have := hlow v hv
      rw [lineAt_eq_getElem _ _ _ (hv.trans h')] at this; simpa [lineMatches] using this

/-- A miss is that no way of the set matches (41_lookup.md R91). -/
theorem lookup_eq_none_iff {s : State} {a : Addr} (hl : (setAt s (setIndex s.cfg a)).length = s.cfg.associativity) :
    lookup s a = none ↔ ¬ Resident s a := by
  rw [lookup, List.findIdx?_eq_none_iff, Resident]
  constructor
  · rintro h ⟨w, hw, hm⟩
    have := h _ (lineAt_mem s _ w (hl ▸ hw))
    simp [lineMatches, hm] at this
  · intro h l hmem
    obtain ⟨w, hw, rfl⟩ := List.mem_iff_getElem.1 hmem
    rw [← lineAt_eq_getElem]
    by_contra hm
    exact h ⟨w, hl ▸ hw, by simpa [lineMatches] using hm⟩

theorem State.Shaped.lookup_some {s : State} (hs : s.Shaped) (a : Addr) (w : Nat) :
    lookup s a = some w ↔ FirstMatch s a w := lookup_eq_some_iff (hs.length_setAt (setIndex_lt s.cfg a)) w

theorem State.Shaped.lookup_none {s : State} (hs : s.Shaped) (a : Addr) : lookup s a = none ↔ ¬ Resident s a :=
  lookup_eq_none_iff (hs.length_setAt (setIndex_lt s.cfg a))

theorem State.Shaped.lookup_isSome {s : State} (hs : s.Shaped) (a : Addr) :
    (lookup s a).isSome = true ↔ Resident s a := by
  rw [← not_iff_not, ← hs.lookup_none]; cases lookup s a <;> simp

/-- `Lookup` reads the configuration and one set, nothing else (41_lookup.md R92). -/
theorem lookup_congr {s t : State} {a : Addr} (hc : t.cfg = s.cfg)
    (hset : setAt t (setIndex s.cfg a) = setAt s (setIndex s.cfg a)) : lookup t a = lookup s a := by
  rw [lookup, lookup, hc, hset]

/-! ## The victim selector -/

theorem firstInvalid_eq_some_iff {s : State} {x : Nat} (hl : (setAt s x).length = s.cfg.associativity) (w : Nat) :
    firstInvalid s x = some w ↔
      w < s.cfg.associativity ∧ (lineAt s x w).valid = false ∧ ∀ v < w, (lineAt s x v).valid = true := by
  rw [firstInvalid, List.findIdx?_eq_some_iff_getElem]
  constructor
  · rintro ⟨h, hm, hlow⟩
    refine ⟨hl ▸ h, ?_, fun v hv => ?_⟩
    · rw [lineAt_eq_getElem _ _ _ h]; simpa using hm
    · rw [lineAt_eq_getElem _ _ _ (hv.trans h)]; simpa using hlow v hv
  · rintro ⟨h, hm, hlow⟩
    have h' : w < (setAt s x).length := hl ▸ h
    refine ⟨h', ?_, fun v hv => ?_⟩
    · rw [lineAt_eq_getElem _ _ _ h'] at hm; simpa using hm
    · have := hlow v hv
      rw [lineAt_eq_getElem _ _ _ (hv.trans h')] at this; simpa using this

theorem firstInvalid_eq_none_iff {s : State} {x : Nat} (hl : (setAt s x).length = s.cfg.associativity) :
    firstInvalid s x = none ↔ SetFull s x := by
  rw [firstInvalid, List.findIdx?_eq_none_iff, SetFull]
  constructor
  · intro h w hw
    simpa using h _ (lineAt_mem s x w (hl ▸ hw))
  · intro h l hmem
    obtain ⟨w, hw, rfl⟩ := List.mem_iff_getElem.1 hmem
    rw [← lineAt_eq_getElem]
    simpa using h w (hl ▸ hw)

/-- All that `SelectVictim` answers: the victim, with the FIFO pointer advanced when a full set evicts by FIFO and
nothing else changed (43_replacement.md R111 to R115). -/
theorem selectVictim_spec {s : State} (hs : s.Shaped) {x : Nat} (hx : x < s.cfg.numSets) :
    IsVictim s x (selectVictim s x).1 ∧ (selectVictim s x).1 < s.cfg.associativity ∧
    (selectVictim s x).2 =
      if SetFull s x ∧ s.cfg.policy = .fifo then withRr s x ((rrAt s x + 1) % s.cfg.associativity) else s := by
  have hl := hs.length_setAt hx
  unfold selectVictim
  cases hf : firstInvalid s x with
  | some w =>
    have hw := (firstInvalid_eq_some_iff hl w).1 hf
    refine ⟨.inl hw, hw.1, (if_neg ?_).symm⟩
    rintro ⟨h, -⟩
    have := h w hw.1
    rw [hw.2.1] at this
    exact absurd this (by decide)
  | none =>
    have hfull := (firstInvalid_eq_none_iff hl).1 hf
    cases hp : s.cfg.policy with
    | fifo =>
      refine ⟨.inr (.inl ⟨hfull, hp, rfl⟩), hs.rrAt_lt hp hx, ?_⟩
      rw [if_pos ⟨hfull, rfl⟩]; rfl
    | lru =>
      have hperm := hs.lruAt_perm hp hx
      have hne : lruAt s x ≠ [] := by
        intro h
        rw [h] at hperm
        have := hperm.length_eq
        simp only [List.length_nil, List.length_range] at this
        have := hs.legal.2.2
        omega
      have hlast : (lruAt s x).getLastD 0 = (lruAt s x).getLast hne := by
        rw [List.getLastD_eq_getLast?, List.getLast?_eq_getLast_of_ne_nil hne]; rfl
      refine ⟨.inr (.inr ⟨hfull, hp, ?_⟩), ?_, ?_⟩
      · simp only [evictLru, hlast]; exact List.getLast?_eq_getLast_of_ne_nil hne
      · simp only [evictLru, hlast]
        exact List.mem_range.1 (hperm.mem_iff.1 (List.getLast_mem hne))
      · rw [if_neg (by simp)]; rfl

/-- A set has one victim. -/
theorem IsVictim.unique {s : State} {x v w : Nat} (hv : IsVictim s x v) (hw : IsVictim s x w) : v = w := by
  have key : ∀ {v w}, (v < s.cfg.associativity ∧ (lineAt s x v).valid = false ∧ ∀ u < v, (lineAt s x u).valid = true) →
      IsVictim s x w → ¬ w < v → v = w := by
    rintro v w ⟨hv, hi, hlow⟩ h hwv
    rcases h with ⟨-, hj, hlow'⟩ | ⟨hfull, -⟩ | ⟨hfull, -⟩
    · rcases lt_trichotomy v w with h | h | h
      · exact absurd (hlow' v h) (by rw [hi]; decide)
      · exact h
      · exact absurd h hwv
    · exact absurd (hfull v hv) (by rw [hi]; decide)
    · exact absurd (hfull v hv) (by rw [hi]; decide)
  have hv' := hv
  have hw' := hw
  rcases hv with h | ⟨hf, hp, rfl⟩ | ⟨hf, hp, h⟩
  · by_cases hlt : w < v
    · rcases hw with h' | ⟨hfull, -⟩ | ⟨hfull, -⟩
      · exact (key h' hv' (by omega)).symm
      · exact absurd (hfull v h.1) (by rw [h.2.1]; decide)
      · exact absurd (hfull v h.1) (by rw [h.2.1]; decide)
    · exact key h hw' hlt
  · rcases hw with h' | ⟨-, -, rfl⟩ | ⟨-, hp', -⟩
    · exact absurd (hf w h'.1) (by rw [h'.2.1]; decide)
    · rfl
    · rw [hp] at hp'; exact absurd hp' (by decide)
  · rcases hw with h' | ⟨-, hp', -⟩ | ⟨-, -, h'⟩
    · exact absurd (hf w h'.1) (by rw [h'.2.1]; decide)
    · rw [hp] at hp'; exact absurd hp' (by decide)
    · rw [h] at h'; exact Option.some.inj h'

theorem State.Shaped.selectVictim {s : State} (hs : s.Shaped) {x : Nat} (hx : x < s.cfg.numSets) :
    (selectVictim s x).2.Shaped := by
  rw [(selectVictim_spec hs hx).2.2]
  split
  · exact hs.withRr x (Nat.mod_lt _ hs.legal.2.2)
  · exact hs

/-! ## Fill -/

/-- The bytes the store has at the block of `a`, in order (20_memory.md R45). -/
def blockOf (s : State) (a : Addr) : List Byte :=
  (List.range s.cfg.blockSize).map fun k => s.bs.read (blockStart s.cfg a + k)

@[simp] theorem length_blockOf (s : State) (a : Addr) : (blockOf s a).length = s.cfg.blockSize := by simp [blockOf]

theorem blockOf_getD (s : State) (a : Addr) {k : Nat} (hk : k < s.cfg.blockSize) :
    (blockOf s a).getD k 0 = s.bs.read (blockStart s.cfg a + k) := by
  simp [blockOf, List.getD_eq_getElem?_getD, hk]

/-- All that loading a way does: the line is written, then touched (42_fill.md R100, R101). -/
theorem loadWay_eq {s : State} (hc : s.cfg.Legal) (a : Addr) (w : Nat) :
    loadWay s a w =
      some (touch (withLine s (setIndex s.cfg a) w (loadedLine (tagOf s.cfg a) (blockOf s a))) (setIndex s.cfg a) w) := by
  rw [loadWay, memRead_inside _ _ _ (blockStart_add_blockSize_le s.cfg a hc)]
  rfl

/-- The way `Fill(a)` writes: the one that holds the block, or else the victim. -/
def fillWay (s : State) (a : Addr) : Nat :=
  match lookup s a with
  | some w => w
  | none => (selectVictim s (setIndex s.cfg a)).1

/-- What `SelectVictim` leaves when `Fill(a)` needs it; a resident block needs none. -/
def afterSelect (s : State) (a : Addr) : State :=
  match lookup s a with
  | some _ => s
  | none => (selectVictim s (setIndex s.cfg a)).2

theorem afterSelect_eq {s : State} (hs : s.Shaped) (a : Addr) :
    afterSelect s a =
      if lookup s a = none ∧ SetFull s (setIndex s.cfg a) ∧ s.cfg.policy = .fifo then
        withRr s (setIndex s.cfg a) ((rrAt s (setIndex s.cfg a) + 1) % s.cfg.associativity)
      else s := by
  unfold afterSelect
  cases h : lookup s a with
  | some w => simp
  | none => simp [(selectVictim_spec hs (setIndex_lt s.cfg a)).2.2]

/-- All that `Fill` does in a block of the right shape: it never fails (43_replacement.md R110 (b)). -/
theorem fillBlock_eq {s : State} (hs : s.Shaped) (a : Addr) :
    fillBlock s a = some (fillWay s a,
      touch (withLine (afterSelect s a) (setIndex s.cfg a) (fillWay s a) (loadedLine (tagOf s.cfg a) (blockOf s a)))
        (setIndex s.cfg a) (fillWay s a)) := by
  unfold fillBlock fillWay afterSelect
  cases h : lookup s a with
  | some w => simp [loadWay_eq hs.legal]
  | none =>
    have hc : (selectVictim s (setIndex s.cfg a)).2.cfg = s.cfg := selectVictim_cfg s _
    simp only [loadWay_eq (hs.selectVictim (setIndex_lt s.cfg a)).legal, Option.map_some, hc]
    simp [blockOf]

theorem fillWay_lt {s : State} (hs : s.Shaped) (a : Addr) : fillWay s a < s.cfg.associativity := by
  unfold fillWay
  cases h : lookup s a with
  | some w => exact ((lookup_eq_some_iff (hs.length_setAt (setIndex_lt s.cfg a)) w).1 h).1
  | none => exact (selectVictim_spec hs (setIndex_lt s.cfg a)).2.1

/-- The state a fill leaves. -/
def filled (s : State) (a : Addr) : State :=
  touch (withLine (afterSelect s a) (setIndex s.cfg a) (fillWay s a) (loadedLine (tagOf s.cfg a) (blockOf s a)))
    (setIndex s.cfg a) (fillWay s a)

@[simp] theorem afterSelect_cfg (s : State) (a : Addr) : (afterSelect s a).cfg = s.cfg := by
  unfold afterSelect; split <;> simp
@[simp] theorem afterSelect_phase (s : State) (a : Addr) : (afterSelect s a).phase = s.phase := by
  unfold afterSelect; split <;> simp
@[simp] theorem afterSelect_lines (s : State) (a : Addr) : (afterSelect s a).lines = s.lines := by
  unfold afterSelect; split <;> simp
@[simp] theorem afterSelect_bs (s : State) (a : Addr) : (afterSelect s a).bs = s.bs := by
  unfold afterSelect; split <;> simp
@[simp] theorem afterSelect_lru (s : State) (a : Addr) : (afterSelect s a).lru = s.lru := by
  unfold afterSelect; split <;> simp
@[simp] theorem afterSelect_pending (s : State) (a : Addr) : (afterSelect s a).pending = s.pending := by
  unfold afterSelect; split <;> simp
@[simp] theorem afterSelect_response (s : State) (a : Addr) : (afterSelect s a).response = s.response := by
  unfold afterSelect; split <;> simp
@[simp] theorem setAt_afterSelect (s : State) (a : Addr) (y : Nat) : setAt (afterSelect s a) y = setAt s y := by
  simp [setAt]
@[simp] theorem lineAt_afterSelect (s : State) (a : Addr) (y v : Nat) : lineAt (afterSelect s a) y v = lineAt s y v := by
  simp [lineAt]
@[simp] theorem lruAt_afterSelect (s : State) (a : Addr) (y : Nat) : lruAt (afterSelect s a) y = lruAt s y := by
  simp [lruAt]

@[simp] theorem filled_cfg (s : State) (a : Addr) : (filled s a).cfg = s.cfg := by simp [filled]
@[simp] theorem filled_phase (s : State) (a : Addr) : (filled s a).phase = s.phase := by simp [filled]
@[simp] theorem filled_bs (s : State) (a : Addr) : (filled s a).bs = s.bs := by simp [filled]
@[simp] theorem filled_rr (s : State) (a : Addr) : (filled s a).rr = (afterSelect s a).rr := by simp [filled]
@[simp] theorem filled_pending (s : State) (a : Addr) : (filled s a).pending = s.pending := by simp [filled]
@[simp] theorem filled_response (s : State) (a : Addr) : (filled s a).response = s.response := by simp [filled]

/-- A fill leaves a block of the right shape. -/
theorem State.Shaped.filled {s : State} (hs : s.Shaped) (a : Addr) : (filled s a).Shaped := by
  have hx := setIndex_lt s.cfg a
  have ha : (afterSelect s a).Shaped := by
    unfold afterSelect; split
    · exact hs
    · exact hs.selectVictim hx
  refine State.Shaped.touch (State.Shaped.withLine ha (by simpa using hx) ?_ ?_) ?_ ?_
  · simpa [loadedLine] using tagOf_lt s.cfg a hs.legal
  · simp [loadedLine]
  · simpa using hx
  · simpa using fillWay_lt hs a

/-- The line a fill writes (42_fill.md R100). -/
theorem lineAt_filled_same {s : State} (hs : s.Shaped) (a : Addr) :
    lineAt (filled s a) (setIndex s.cfg a) (fillWay s a) = loadedLine (tagOf s.cfg a) (blockOf s a) := by
  rw [filled, lineAt_touch]
  refine lineAt_withLine_same _ _ _ _ ?_
  rw [setAt_afterSelect, hs.length_setAt (setIndex_lt s.cfg a)]
  exact fillWay_lt hs a

/-- Every other line is as before (42_fill.md R105). -/
theorem lineAt_filled_other (s : State) (a : Addr) (y v : Nat) (h : (y, v) ≠ (setIndex s.cfg a, fillWay s a)) :
    lineAt (filled s a) y v = lineAt s y v := by
  rw [filled, lineAt_touch, lineAt_withLine_other _ _ _ _ _ _ h, lineAt_afterSelect]

theorem length_setAt_filled (s : State) (a : Addr) (y : Nat) : (setAt (filled s a) y).length = (setAt s y).length := by
  rw [filled, setAt_touch, length_setAt_withLine, setAt_afterSelect]

theorem length_lines_filled (s : State) (a : Addr) : (filled s a).lines.length = s.lines.length := by
  simp [filled]

/-- The replacement state a fill leaves: the way filled is touched. -/
theorem filled_touchedOnly (s : State) (a : Addr) :
    TouchedOnly s (filled s a) (setIndex s.cfg a) (fillWay s a) := by
  have h := touch_touchedOnly
    (withLine (afterSelect s a) (setIndex s.cfg a) (fillWay s a) (loadedLine (tagOf s.cfg a) (blockOf s a)))
    (setIndex s.cfg a) (fillWay s a)
  simpa [TouchedOnly, filled] using h

/-! ## Reset -/

theorem setAt_of_resetLines {s : State} (hl : s.lines = resetLines s.cfg) {x : Nat} (hx : x < s.cfg.numSets) :
    setAt s x = List.replicate s.cfg.associativity (resetLine s.cfg) := by
  rw [setAt, hl, resetLines, List.getD_eq_getElem _ _ (by simpa using hx)]; simp

theorem lineAt_of_resetLines {s : State} (hl : s.lines = resetLines s.cfg) {x w : Nat} (hx : x < s.cfg.numSets)
    (hw : w < s.cfg.associativity) : lineAt s x w = resetLine s.cfg := by
  rw [lineAt, setAt_of_resetLines hl hx, List.getD_eq_getElem _ _ (by simpa using hw)]; simp

/-- RESET leaves a block of the right shape, whatever it held before. -/
theorem State.Shaped.resetAll {s : State} (hp : s.phase = .ready) (hl : s.cfg.Legal) : (resetAll s).Shaped where
  legal := hl
  phase := hp
  sets := by simp [resetLines]
  ways ls h := by rw [List.eq_of_mem_replicate h]; simp
  tags ls h l h' := by
    rw [List.eq_of_mem_replicate h] at h'
    rw [List.eq_of_mem_replicate h']
    exact Nat.two_pow_pos _
  data ls h l h' := by
    rw [List.eq_of_mem_replicate h] at h'
    rw [List.eq_of_mem_replicate h']
    simp [resetLine]
  store := rfl
  rrFifo h := by
    rw [resetAll_rr, resetRr, show s.cfg.policy = .fifo from h]
    exact ⟨by simp, fun r hr => by rw [List.eq_of_mem_replicate hr]; exact hl.2.2⟩
  lruFifo h := by rw [resetAll_lru, resetLru, show s.cfg.policy = .fifo from h]
  lruLru h := by
    rw [resetAll_lru, resetLru, show s.cfg.policy = .lru from h]
    exact ⟨by simp, fun o ho => by rw [List.eq_of_mem_replicate ho]; exact List.Perm.refl _⟩
  rrLru h := by rw [resetAll_rr, resetRr, show s.cfg.policy = .lru from h]

/-! ## The width of `way` -/

theorem le_two_pow_ceilLog2 (n : Nat) : n ≤ 2 ^ ceilLog2 n := by
  unfold ceilLog2
  split
  · simpa
  · next h =>
    have := (Nat.log2_lt (n := n - 1) (k := (n - 1).log2 + 1) (by omega)).1 (by omega)
    omega

/-- A way number fits `WayBits` (30_encoding.md R69). -/
theorem way_lt_two_pow {c : Config} {w : Nat} (h : w < c.associativity) : w < 2 ^ c.wayBits :=
  lt_of_lt_of_le h ((le_two_pow_ceilLog2 _).trans (Nat.pow_le_pow_right (by decide) (le_max_right _ _)))

/-! ## Phase -/

theorem whenReady_ready {s : State} (h : s.phase = .ready) (r : Result) : whenReady s r = r := by simp [whenReady, h]

theorem whenReady_configFault {s : State} (h : s.phase = .configFault) (r : Result) :
    whenReady s r = raise s .configError := by simp [whenReady, h]

/-! ## What each request answers in a block of the right shape -/

theorem execLookup_eq {s : State} (h : s.phase = .ready) (a : Addr) :
    execLookup a s = .next (withResponse s
      { status := .ok, hit := (lookup s a).isSome, filled := false, way := (lookup s a).getD 0, data := 0 }) := by
  rw [execLookup, whenReady_ready h]
  cases lookup s a <;> rfl

theorem execIshit_eq {s : State} (h : s.phase = .ready) (a : Addr) :
    execIshit a s = .next (withResponse s { status := .ok, hit := (lookup s a).isSome, filled := false, way := 0, data := 0 }) := by
  rw [execIshit, whenReady_ready h]; rfl

theorem execFill_eq {s : State} (hs : s.Shaped) (a : Addr) :
    execFill a s = .next (withResponse (filled s a)
      { status := .ok, hit := (lookup s a).isSome, filled := true, way := fillWay s a, data := 0 }) := by
  rw [execFill, whenReady_ready hs.phase, fillBlock_eq hs]; rfl

theorem execReadb_hit {s : State} (h : s.phase = .ready) {a : Addr} {w : Nat} (hl : lookup s a = some w) :
    execReadb a s = .next (withResponse (touch s (setIndex s.cfg a) w)
      { status := .ok, hit := true, filled := false, way := w, data := byteAt s a w }) := by
  rw [execReadb, whenReady_ready h, hl]; simp [respond]

theorem execReadb_miss {s : State} (hs : s.Shaped) {a : Addr} (hl : lookup s a = none) :
    execReadb a s = .next (withResponse (filled s a)
      { status := .ok, hit := false, filled := true, way := fillWay s a, data := byteAt (filled s a) a (fillWay s a) }) := by
  rw [execReadb, whenReady_ready hs.phase, hl, fillBlock_eq hs]; rfl

theorem execLoadb_inside {s : State} (h : s.phase = .ready) {a : Addr} {bytes : List Byte}
    (hr : a.toNat + bytes.length ≤ addressSpace) :
    execLoadb a bytes s = .next (withResponse (withStore s (s.bs.writeAll a.toNat bytes)) okResponse) := by
  rw [execLoadb, whenReady_ready h, if_neg (by omega), storeBytes, memWrite_inside _ _ _ hr]; rfl

theorem execLoadb_outside {s : State} (h : s.phase = .ready) {a : Addr} {bytes : List Byte}
    (hr : addressSpace < a.toNat + bytes.length) :
    execLoadb a bytes s = .next (withResponse
      (if s.cfg.loadPartial then withStore s (s.bs.writeAll a.toNat (bytes.take (addressSpace - a.toNat))) else s)
      (errorResponse .outOfRange)) := by
  rw [execLoadb, whenReady_ready h, if_pos hr]
  split
  · next hp =>
    have ha : a.toNat < addressSpace := a.isLt
    rw [storeBytes, memWrite_inside _ _ _ (by rw [List.length_take]; omega)]; rfl
  · rfl

theorem execReset_eq {s : State} (h : s.phase = .ready) (hc : s.cfg.Legal) :
    execReset s = .next (withResponse (resetAll s) okResponse) := by
  rw [execReset, whenReady_ready h, if_pos hc]; rfl

end Sys2Proof.Machine
end

