-- ==== Sys2Proof/Laws/Exec.lean ====
section
/-! SUPPORT. What each request can answer, said once: inversion lemmas for a block of the right shape, and how a fill and
a touch commute with updates they do not read. -/
namespace Sys2Proof.Machine

/-! ## Commuting a touch and a fill with other updates -/

theorem touch_withLine (s : State) (x w y v : Nat) (l : Line) :
    touch (withLine s y v l) x w = withLine (touch s x w) y v l := by
  unfold touch; simp only [withLine_cfg]; cases s.cfg.policy <;> rfl

theorem touch_withStore (s : State) (m : Memory) (x w : Nat) :
    touch (withStore s m) x w = withStore (touch s x w) m := by
  unfold touch; simp only [withStore_cfg]; cases s.cfg.policy <;> rfl

theorem touch_withResponse (s : State) (r : Response) (x w : Nat) :
    touch (withResponse s r) x w = withResponse (touch s x w) r := by
  unfold touch; simp only [withResponse_cfg]; cases s.cfg.policy <;> rfl

theorem touch_withPending (s : State) (fs : List (List Byte)) (x w : Nat) :
    touch (withPending s fs) x w = withPending (touch s x w) fs := by
  unfold touch; simp only [withPending_cfg]; cases s.cfg.policy <;> rfl

theorem selectVictim_withStore (s : State) (m : Memory) (x : Nat) :
    selectVictim (withStore s m) x = ((selectVictim s x).1, withStore (selectVictim s x).2 m) := by
  unfold selectVictim
  simp only [firstInvalid_withStore, withStore_cfg]
  cases firstInvalid s x with
  | some w => rfl
  | none => cases s.cfg.policy <;> rfl

theorem selectVictim_withResponse (s : State) (r : Response) (x : Nat) :
    selectVictim (withResponse s r) x = ((selectVictim s x).1, withResponse (selectVictim s x).2 r) := by
  unfold selectVictim
  simp only [firstInvalid_withResponse, withResponse_cfg]
  cases firstInvalid s x with
  | some w => rfl
  | none => cases s.cfg.policy <;> rfl

theorem selectVictim_withPending (s : State) (fs : List (List Byte)) (x : Nat) :
    selectVictim (withPending s fs) x = ((selectVictim s x).1, withPending (selectVictim s x).2 fs) := by
  unfold selectVictim
  simp only [firstInvalid_withPending, withPending_cfg]
  cases firstInvalid s x with
  | some w => rfl
  | none => cases s.cfg.policy <;> rfl

@[simp] theorem fillWay_withStore (s : State) (m : Memory) (a : Addr) : fillWay (withStore s m) a = fillWay s a := by
  unfold fillWay; rw [lookup_withStore, selectVictim_withStore]; rfl

@[simp] theorem fillWay_withResponse (s : State) (r : Response) (a : Addr) :
    fillWay (withResponse s r) a = fillWay s a := by
  unfold fillWay; rw [lookup_withResponse, selectVictim_withResponse]; rfl

@[simp] theorem fillWay_withPending (s : State) (fs : List (List Byte)) (a : Addr) :
    fillWay (withPending s fs) a = fillWay s a := by
  unfold fillWay; rw [lookup_withPending, selectVictim_withPending]; rfl

theorem afterSelect_withStore (s : State) (m : Memory) (a : Addr) :
    afterSelect (withStore s m) a = withStore (afterSelect s a) m := by
  unfold afterSelect; rw [lookup_withStore, selectVictim_withStore]; cases lookup s a <;> rfl

theorem afterSelect_withResponse (s : State) (r : Response) (a : Addr) :
    afterSelect (withResponse s r) a = withResponse (afterSelect s a) r := by
  unfold afterSelect; rw [lookup_withResponse, selectVictim_withResponse]; cases lookup s a <;> rfl

theorem afterSelect_withPending (s : State) (fs : List (List Byte)) (a : Addr) :
    afterSelect (withPending s fs) a = withPending (afterSelect s a) fs := by
  unfold afterSelect; rw [lookup_withPending, selectVictim_withPending]; cases lookup s a <;> rfl

theorem filled_withResponse (s : State) (r : Response) (a : Addr) :
    filled (withResponse s r) a = withResponse (filled s a) r := by
  unfold filled; rw [afterSelect_withResponse, fillWay_withResponse, ← touch_withResponse]; rfl

theorem filled_withPending (s : State) (fs : List (List Byte)) (a : Addr) :
    filled (withPending s fs) a = withPending (filled s a) fs := by
  unfold filled; rw [afterSelect_withPending, fillWay_withPending, ← touch_withPending]; rfl

/-- A store that agrees on the block is as good for the fill. -/
theorem filled_withStore (s : State) (m : Memory) (a : Addr)
    (hm : ∀ k < s.cfg.blockSize, m.read (blockStart s.cfg a + k) = s.bs.read (blockStart s.cfg a + k)) :
    filled (withStore s m) a = withStore (filled s a) m := by
  have h : blockOf (withStore s m) a = blockOf s a := List.map_congr_left fun k hk => hm k (List.mem_range.1 hk)
  unfold filled; rw [afterSelect_withStore, fillWay_withStore, h, ← touch_withStore]; rfl

/-! ## Filling what is resident -/

theorem fillWay_hit {s : State} {a : Addr} {w : Nat} (h : lookup s a = some w) : fillWay s a = w := by simp [fillWay, h]

theorem fillWay_miss {s : State} (hs : s.Shaped) {a : Addr} (h : lookup s a = none) :
    IsVictim s (setIndex s.cfg a) (fillWay s a) := by
  simp only [fillWay, h]; exact (selectVictim_spec hs (setIndex_lt s.cfg a)).1

/-- After a fill the block is found where it was put. -/
theorem lookup_filled {s : State} (hs : s.Shaped) (a : Addr) : lookup (filled s a) a = some (fillWay s a) := by
  rw [(hs.filled a).lookup_some, FirstMatch]
  simp only [filled_cfg]
  refine ⟨fillWay_lt hs a, by rw [lineAt_filled_same hs]; exact ⟨rfl, rfl⟩, fun v hv => ?_⟩
  rw [lineAt_filled_other _ _ _ _ fun h => by have := (Prod.mk.inj h).2; omega]
  cases hl : lookup s a with
  | none => exact fun h => (hs.lookup_none a).1 hl ⟨v, hv.trans (fillWay_lt hs a), h⟩
  | some w =>
    rw [fillWay_hit hl] at hv
    exact ((hs.lookup_some a w).1 hl).2.2 v hv

theorem touch_touch (s : State) (x w : Nat) : touch (touch s x w) x w = touch s x w := by
  cases hp : s.cfg.policy with
  | fifo => rw [touch_fifo s hp, touch_fifo s hp]
  | lru =>
    rw [touch_lru s hp, touch_lru _ (by exact hp)]
    by_cases hx : x < s.lru.length
    · have : lruAt (withLru s x (w :: (lruAt s x).filter (· ≠ w))) x = w :: (lruAt s x).filter (· ≠ w) := by
        rw [lruAt, withLru_lru, List.getD_eq_getElem _ _ (by simpa using hx)]; simp
      rw [this]; simp [withLru]
    · simp [withLru, List.set_eq_of_length_le (Nat.le_of_not_lt hx)]

theorem withLine_withLine (s : State) (x w : Nat) (l : Line) : withLine (withLine s x w l) x w l = withLine s x w l := by
  have h := setAt_withLine s x w l x
  rw [if_pos rfl] at h
  unfold withLine at *
  simp only [] at *
  rw [h]; simp

/-- Filling twice is filling once. -/
theorem filled_filled {s : State} (hs : s.Shaped) (a : Addr) : filled (filled s a) a = filled s a := by
  have h1 := lookup_filled hs a
  have h2 : afterSelect (filled s a) a = filled s a := by rw [afterSelect, h1]
  have h3 : blockOf (filled s a) a = blockOf s a := by simp [blockOf]
  conv_lhs => rw [filled, h2, fillWay_hit h1, h3, filled_cfg]
  rw [touch_withLine]
  conv_lhs => rw [filled, touch_touch, ← touch_withLine, withLine_withLine]
  rfl

/-! ## Residence -/

theorem resident_of_firstMatch {s : State} {a : Addr} {w : Nat} (h : FirstMatch s a w) : Resident s a := ⟨w, h.1, h.2.1⟩

/-- Residence is of the block, not of the address. -/
theorem resident_in_block {s : State} {a b : Addr} (h1 : blockStart s.cfg a ≤ b.toNat) (h2 : b.toNat ≤ blockEnd s.cfg a) :
    Resident s b ↔ Resident s a := by
  obtain ⟨e1, e2, -⟩ := same_block s.cfg b ((in_block_iff s.cfg a b.toNat).1 ⟨h1, h2⟩)
  rw [Resident, Resident, e1, e2]

/-- Residence is read off the configuration and the lines. -/
theorem resident_congr {s t : State} (hc : t.cfg = s.cfg) (hl : t.lines = s.lines) (a : Addr) :
    Resident t a ↔ Resident s a := by
  have h : ∀ y v, lineAt t y v = lineAt s y v := fun y v => by rw [lineAt, setAt, hl]; rfl
  rw [Resident, Resident, hc]
  simp only [h]

theorem resident_filled {s : State} (hs : s.Shaped) (a : Addr) : Resident (filled s a) a := by
  refine ⟨fillWay s a, by simpa using fillWay_lt hs a, ?_⟩
  simp only [filled_cfg, lineAt_filled_same hs]
  exact ⟨rfl, rfl⟩

/-! ## Inversion -/

/-- RESET. -/
theorem exec_reset_inv {s t : State} (hp : s.phase = .ready) (hl : s.cfg.Legal) (h : exec .reset s = .next t) :
    t = withResponse (resetAll s) okResponse := by
  simp only [exec, execReset_eq hp hl] at h; cases h; rfl

/-- LOADB: nothing but the store and the response. -/
theorem exec_loadb_inv {s t : State} (hp : s.phase = .ready) {a : Addr} {bytes : List Byte}
    (h : exec (.loadb a bytes) s = .next t) :
    (a.toNat + bytes.length ≤ addressSpace ∧
      t = withResponse (withStore s (s.bs.writeAll a.toNat bytes)) okResponse) ∨
    (addressSpace < a.toNat + bytes.length ∧ s.cfg.loadPartial = true ∧
      t = withResponse (withStore s (s.bs.writeAll a.toNat (bytes.take (addressSpace - a.toNat))))
        (errorResponse .outOfRange)) ∨
    (addressSpace < a.toNat + bytes.length ∧ s.cfg.loadPartial = false ∧
      t = withResponse s (errorResponse .outOfRange)) := by
  simp only [exec] at h
  by_cases hb : a.toNat + bytes.length ≤ addressSpace
  · rw [execLoadb_inside hp hb] at h; cases h; exact .inl ⟨hb, rfl⟩
  · rw [execLoadb_outside hp (Nat.lt_of_not_le hb)] at h; cases h
    cases hpart : s.cfg.loadPartial with
    | true => exact .inr (.inl ⟨Nat.lt_of_not_le hb, rfl, by simp⟩)
    | false => exact .inr (.inr ⟨Nat.lt_of_not_le hb, rfl, by simp⟩)

/-- READB: a hit touches, a miss fills. -/
theorem exec_readb_inv {s t : State} (hs : s.Shaped) {a : Addr} (h : exec (.readb a) s = .next t) :
    (∃ w, FirstMatch s a w ∧ t = withResponse (touch s (setIndex s.cfg a) w)
      { status := .ok, hit := true, filled := false, way := w, data := byteAt s a w }) ∨
    (¬ Resident s a ∧ t = withResponse (filled s a)
      { status := .ok, hit := false, filled := true, way := fillWay s a,
        data := byteAt (filled s a) a (fillWay s a) }) := by
  simp only [exec] at h
  cases hl : lookup s a with
  | some w => rw [execReadb_hit hs.phase hl] at h; cases h; exact .inl ⟨w, (hs.lookup_some a w).1 hl, rfl⟩
  | none => rw [execReadb_miss hs hl] at h; cases h; exact .inr ⟨(hs.lookup_none a).1 hl, rfl⟩

/-- FILL. -/
theorem exec_fill_inv {s t : State} (hs : s.Shaped) {a : Addr} (h : exec (.fill a) s = .next t) :
    t = withResponse (filled s a)
      { status := .ok, hit := (lookup s a).isSome, filled := true, way := fillWay s a, data := 0 } := by
  simp only [exec] at h; rw [execFill_eq hs] at h; cases h; rfl

/-- LOOKUP: nothing but the response. -/
theorem exec_lookup_inv {s t : State} (hp : s.phase = .ready) {a : Addr} (h : exec (.lookup a) s = .next t) :
    t = withResponse s
      { status := .ok, hit := (lookup s a).isSome, filled := false, way := (lookup s a).getD 0, data := 0 } := by
  simp only [exec, execLookup_eq hp] at h; cases h; rfl

/-- ISHIT: nothing but the response. -/
theorem exec_ishit_inv {s t : State} (hp : s.phase = .ready) {a : Addr} (h : exec (.ishit a) s = .next t) :
    t = withResponse s { status := .ok, hit := (lookup s a).isSome, filled := false, way := 0, data := 0 } := by
  simp only [exec, execIshit_eq hp] at h; cases h; rfl

/-- The bytes a LOADB can leave, out of range or not, are in canonical form. -/
theorem writeAll_take_wf (m : Memory) (hm : m.wf = true) (a : Addr) (bytes : List Byte) :
    (m.writeAll a.toNat (bytes.take (addressSpace - a.toNat))).wf = true := by
  refine Memory.writeAll_wf m hm _ _ ?_
  have : a.toNat < 65536 := a.isLt
  rw [List.length_take]; simp only [addressSpace]; omega

/-- A request answered by a block of the right shape leaves a block of the right shape. -/
theorem State.Shaped.exec {s t : State} (hs : s.Shaped) {i : Instr} (h : exec i s = .next t) : t.Shaped := by
  cases i with
  | reset => rw [exec_reset_inv hs.phase hs.legal h]; exact (State.Shaped.resetAll hs.phase hs.legal).withResponse _
  | loadb a bytes =>
    rcases exec_loadb_inv hs.phase h with ⟨hb, rfl⟩ | ⟨-, -, rfl⟩ | ⟨-, -, rfl⟩
    · exact (hs.withStore (Memory.writeAll_wf _ hs.store _ _ hb)).withResponse _
    · exact (hs.withStore (writeAll_take_wf _ hs.store a bytes)).withResponse _
    · exact hs.withResponse _
  | readb a =>
    rcases exec_readb_inv hs h with ⟨w, hw, rfl⟩ | ⟨-, rfl⟩
    · exact (hs.touch (setIndex_lt _ _) hw.1).withResponse _
    · exact (hs.filled a).withResponse _
  | fill a => rw [exec_fill_inv hs h]; exact (hs.filled a).withResponse _
  | lookup a => rw [exec_lookup_inv hs.phase h]; exact hs.withResponse _
  | ishit a => rw [exec_ishit_inv hs.phase h]; exact hs.withResponse _

end Sys2Proof.Machine
end

