-- ==== Sys2Proof/Laws/Fill.lean ====
section
/-! SUPPORT. What a fill leaves, component by component; what a request does to the lines; and that no operation reads
the requests still to run. -/
namespace Sys2Proof.Machine

/-! ## The lines -/

/-- Lines read off equal line arrays are equal. -/
theorem lineAt_of_lines {s t : State} (h : t.lines = s.lines) (x w : Nat) : lineAt t x w = lineAt s x w := by
  rw [lineAt, setAt, h]; rfl

theorem lineAt_resetAll {s : State} {x w : Nat} (hx : x < s.cfg.numSets) (hw : w < s.cfg.associativity) :
    lineAt (withResponse (resetAll s) okResponse) x w = resetLine s.cfg :=
  lineAt_of_resetLines (s := withResponse (resetAll s) okResponse) rfl hx hw

theorem setAt_filled (s : State) (a : Addr) (y : Nat) :
    setAt (filled s a) y = if y = setIndex s.cfg a then
      (setAt s (setIndex s.cfg a)).set (fillWay s a) (loadedLine (tagOf s.cfg a) (blockOf s a)) else setAt s y := by
  rw [filled, setAt_touch, setAt_withLine, setAt_afterSelect, setAt_afterSelect]

theorem lineAt_filled {s : State} (hs : s.Shaped) (a : Addr) (x w : Nat) :
    lineAt (filled s a) x w = if x = setIndex s.cfg a ∧ w = fillWay s a then
      loadedLine (tagOf s.cfg a) (blockOf s a) else lineAt s x w := by
  split
  · next h => rw [h.1, h.2, lineAt_filled_same hs]
  · next h => exact lineAt_filled_other s a x w fun e => h (Prod.mk.inj e)

/-- The byte a READB that misses answers. -/
theorem byteAt_filled {s : State} (hs : s.Shaped) (a : Addr) : byteAt (filled s a) a (fillWay s a) = s.bs.read a.toNat := by
  rw [byteAt, filled_cfg, lineAt_filled_same hs]
  exact (blockOf_getD s a (offsetOf_lt _ _)).trans (by rw [blockStart_add_offset])

/-- The filled line is a copy of its block. -/
theorem filled_isCopy {s : State} (hs : s.Shaped) (a : Addr) :
    LineIsCopyOf (filled s a) (setIndex s.cfg a) (fillWay s a) s.bs := by
  intro k hk
  simp only [filled_cfg, lineAt_filled_same hs] at hk ⊢
  exact (blockOf_getD s a hk).trans (by simp only [loadedLine]; rw [reassemble_block])

theorem filled_loadedInto {s : State} (hs : s.Shaped) (a : Addr) (r : Response) :
    LoadedInto s (withResponse (filled s a) r) a (fillWay s a) where
  holds := by
    simp only [HoldsBlock, lineAt_withResponse, lineAt_filled_same hs]
    exact ⟨rfl, rfl, rfl, length_blockOf s a, fun k hk => blockOf_getD s a hk⟩
  others := ⟨length_lines_filled s a, fun y => length_setAt_filled s a y, fun y v h => lineAt_filled_other s a y v h⟩
  surroundings := by simp [SameSurroundings]
  touched := filled_touchedOnly s a

/-! ## The replacement state -/

theorem rr_filled_hit {s : State} {a : Addr} {w : Nat} (h : lookup s a = some w) : (filled s a).rr = s.rr := by
  simp [afterSelect, h]

theorem rr_filled_miss {s : State} (hs : s.Shaped) {a : Addr} (h : lookup s a = none) (r : Response) :
    PointerAfterMiss s (withResponse (filled s a) r) (setIndex s.cfg a) := by
  simp only [PointerAfterMiss, withResponse_rr, filled_rr, afterSelect_eq hs, h, true_and]
  split <;> simp

theorem rrAt_filled_other {s : State} (hs : s.Shaped) (a : Addr) {y : Nat} (hy : y ≠ setIndex s.cfg a) :
    rrAt (filled s a) y = rrAt s y := by
  rw [filled, rrAt_touch, rrAt_withLine, afterSelect_eq hs]
  split
  · simp only [rrAt, withRr_rr, List.getD_eq_getElem?_getD, List.getElem?_set_ne (fun e => hy e.symm)]
  · rfl

theorem rrAt_filled {s : State} (hs : s.Shaped) (hp : s.cfg.policy = .fifo) (a : Addr) {x : Nat}
    (hx : x < s.cfg.numSets) :
    rrAt (filled s a) x = if x = setIndex s.cfg a ∧ ¬ Resident s a ∧ SetFull s x then
      (rrAt s x + 1) % s.cfg.associativity else rrAt s x := by
  by_cases hxa : x = setIndex s.cfg a
  · rw [filled, rrAt_touch, rrAt_withLine, afterSelect_eq hs]
    subst hxa
    simp only [hs.lookup_none, hp, and_true, true_and]
    split
    · have : setIndex s.cfg a < s.rr.length := by rw [(hs.rrFifo hp).1]; exact hx
      simp [rrAt, withRr, List.getD_eq_getElem?_getD, this]
    · rfl
  · rw [rrAt_filled_other hs a hxa, if_neg (by tauto)]

theorem lruAt_touch_other (s : State) {x w y : Nat} (hy : y ≠ x) : lruAt (touch s x w) y = lruAt s y := by
  unfold touch; split
  · rfl
  · simp only [lruAt, withLru_lru, List.getD_eq_getElem?_getD, List.getElem?_set_ne (fun e => hy e.symm)]

/-- The recency list of the touched set: `w` first, the others in their order; under FIFO there is none. -/
theorem lruAt_touch_same {s : State} (hs : s.Shaped) {x w : Nat} (hx : x < s.cfg.numSets) :
    lruAt (touch s x w) x = match s.cfg.policy with | .fifo => [] | .lru => movedToFront w (lruAt s x) := by
  cases hp : s.cfg.policy with
  | fifo => rw [touch_fifo s hp, lruAt, hs.lruFifo hp]; rfl
  | lru =>
    rw [touch_lru s hp, lruAt, withLru_lru, List.getD_eq_getElem _ _ (by simpa [(hs.lruLru hp).1] using hx)]
    simp [movedToFront]

theorem lruAt_filled_same {s : State} (hs : s.Shaped) (a : Addr) :
    lruAt (filled s a) (setIndex s.cfg a) =
      match s.cfg.policy with | .fifo => [] | .lru => movedToFront (fillWay s a) (lruAt s (setIndex s.cfg a)) := by
  rw [← lruAt_touch_same hs (w := fillWay s a) (setIndex_lt s.cfg a), filled]
  unfold touch; simp only [withLine_cfg, afterSelect_cfg]; cases s.cfg.policy <;> simp [lruAt]

theorem lruAt_filled_other (s : State) (a : Addr) {y : Nat} (hy : y ≠ setIndex s.cfg a) :
    lruAt (filled s a) y = lruAt s y := by
  rw [filled, lruAt_touch_other _ hy, lruAt_withLine, lruAt_afterSelect]

/-! ## Every request at once -/

/-- What a request does to the lines: RESET; or nothing, and the answer says nothing was filled; or a fill. -/
theorem exec_lines_inv {s t : State} (hs : s.Shaped) {i : Instr} (h : exec i s = .next t) :
    i = .reset ∨ (t.lines = s.lines ∧ t.cfg = s.cfg ∧ ∃ r, t.response = some r ∧ r.filled = false) ∨
    (∃ a r, (i = .readb a ∨ i = .fill a) ∧ t = withResponse (filled s a) r ∧ r.filled = true ∧
      r.way = fillWay s a ∧ r.hit = (lookup s a).isSome) := by
  cases i with
  | reset => exact .inl rfl
  | loadb b bs =>
    rcases exec_loadb_inv hs.phase h with ⟨hb, rfl⟩ | ⟨-, -, rfl⟩ | ⟨-, -, rfl⟩ <;>
      exact .inr (.inl ⟨rfl, rfl, _, rfl, rfl⟩)
  | readb a =>
    rcases exec_readb_inv hs h with ⟨w, hw, rfl⟩ | ⟨hm, rfl⟩
    · exact .inr (.inl ⟨by simp, by simp, _, rfl, rfl⟩)
    · exact .inr (.inr ⟨a, _, .inl rfl, rfl, rfl, rfl, by rw [(hs.lookup_none a).2 hm]; rfl⟩)
  | fill a => exact .inr (.inr ⟨a, _, .inr rfl, exec_fill_inv hs h, rfl, rfl, rfl⟩)
  | lookup a => rw [exec_lookup_inv hs.phase h]; exact .inr (.inl ⟨rfl, rfl, _, rfl, rfl⟩)
  | ishit a => rw [exec_ishit_inv hs.phase h]; exact .inr (.inl ⟨rfl, rfl, _, rfl, rfl⟩)

/-! ## Stores and pending requests the operations do not read -/

theorem fillBlock_withStore {s : State} (hs : s.Shaped) (a : Addr) (m : Memory)
    (hm : ∀ k < s.cfg.blockSize, m.read (blockStart s.cfg a + k) = s.bs.read (blockStart s.cfg a + k)) :
    fillBlock (withStore s m) a = some (fillWay s a, withStore (filled s a) m) := by
  rw [← filled_withStore s m a hm, ← fillWay_withStore s m a]
  unfold fillBlock fillWay filled afterSelect fillWay
  cases hl : lookup (withStore s m) a with
  | some w => simp only [loadWay_eq (s := withStore s m) hs.legal, Option.map_some]
  | none =>
    have hc : (selectVictim (withStore s m) (setIndex (withStore s m).cfg a)).2.cfg = s.cfg := by simp
    simp only [loadWay_eq (s := (selectVictim (withStore s m) (setIndex (withStore s m).cfg a)).2)
      (by rw [hc]; exact hs.legal), hc, Option.map_some]
    simp [blockOf]

theorem loadWay_withPending (s : State) (fs : List (List Byte)) (a : Addr) (w : Nat) :
    loadWay (withPending s fs) a w = (loadWay s a w).map (withPending · fs) := by
  unfold loadWay
  simp only [withPending_bs, withPending_cfg]
  cases memRead s.bs (blockStart s.cfg a) s.cfg.blockSize with
  | none => rfl
  | some b => simp only [Option.map_some]; congr 1; rw [← touch_withPending]; rfl

theorem fillBlock_withPending (s : State) (fs : List (List Byte)) (a : Addr) :
    fillBlock (withPending s fs) a = (fillBlock s a).map fun p => (p.1, withPending p.2 fs) := by
  unfold fillBlock
  rw [lookup_withPending]
  cases lookup s a with
  | some w => simp only [loadWay_withPending, Option.map_map]; rfl
  | none => simp only [selectVictim_withPending, withPending_cfg, loadWay_withPending, Option.map_map]; rfl

theorem storeBytes_withPending {s t : State} {a : Nat} {bytes : List Byte} {r : Response} (fs : List (List Byte))
    (h : storeBytes s a bytes r = .next t) : storeBytes (withPending s fs) a bytes r = .next (withPending t fs) := by
  unfold storeBytes at *
  simp only [withPending_bs]
  split at h
  · cases h; rfl
  · cases h

/-! ## What a fill leaves alone -/

theorem loadWay_bs {s t : State} {a : Addr} {w : Nat} (h : loadWay s a w = some t) : t.bs = s.bs := by
  unfold loadWay at h; split at h
  · cases h
  · cases h; simp

theorem fillBlock_bs {s t : State} {a : Addr} {w : Nat} (h : fillBlock s a = some (w, t)) : t.bs = s.bs := by
  unfold fillBlock at h
  split at h
  · simp only [Option.map_eq_some_iff] at h
    obtain ⟨u, hu, he⟩ := h; cases he; exact loadWay_bs hu
  · simp only [Option.map_eq_some_iff] at h
    obtain ⟨u, hu, he⟩ := h; cases he; simpa using loadWay_bs hu

/-! ## Steps -/

/-- One step more of a run. -/
theorem run_succ (M : Host.Core) (k : Nat) (s t : M.State) (h : M.step s = .next t) : M.run (k + 1) s = M.run k t := by
  simp only [Host.Core.run, h]

end Sys2Proof.Machine
end

