-- ==== Sys2Proof/Laws/PerInstr.lean ====
section
/-! SUPPORT. Statements made for every request, one lemma per constructor of `Instr`. -/

open Sys2Proof

/-- The header of a well-formed request has its operation code, its address and its length in their places
(30_encoding.md R65, R66). -/
def Sys2Proof.Laws.HeaderFields.Statement (i : Sys2Proof.Instr) : Prop :=
  i.wf = true →
    i.header.op = i.op ∧ i.header.addr = i.addrField ∧ i.header.len.toNat = i.payload.length

theorem Sys2Proof.Laws.HeaderFields.reset : Sys2Proof.Laws.HeaderFields.Statement .reset :=
  fun _ => ⟨Header.op_make _ _ _, Header.addr_make _ _ _, by simp [Instr.header, Instr.payload]⟩

theorem Sys2Proof.Laws.HeaderFields.loadb (addr : Sys2Proof.Addr) (bytes : List Sys2Proof.Byte) :
    Sys2Proof.Laws.HeaderFields.Statement (.loadb addr bytes) := by
  intro h
  refine ⟨Header.op_make _ _ _, Header.addr_make _ _ _, ?_⟩
  simp only [Instr.wf, decide_eq_true_eq] at h
  simp only [Instr.header, Header.len_make, Instr.payload, BitVec.toNat_ofNat]
  exact Nat.mod_eq_of_lt h

theorem Sys2Proof.Laws.HeaderFields.readb (addr : Sys2Proof.Addr) : Sys2Proof.Laws.HeaderFields.Statement (.readb addr) :=
  fun _ => ⟨Header.op_make _ _ _, Header.addr_make _ _ _, by simp [Instr.header, Instr.payload]⟩

theorem Sys2Proof.Laws.HeaderFields.ishit (addr : Sys2Proof.Addr) : Sys2Proof.Laws.HeaderFields.Statement (.ishit addr) :=
  fun _ => ⟨Header.op_make _ _ _, Header.addr_make _ _ _, by simp [Instr.header, Instr.payload]⟩

theorem Sys2Proof.Laws.HeaderFields.lookup (addr : Sys2Proof.Addr) : Sys2Proof.Laws.HeaderFields.Statement (.lookup addr) :=
  fun _ => ⟨Header.op_make _ _ _, Header.addr_make _ _ _, by simp [Instr.header, Instr.payload]⟩

theorem Sys2Proof.Laws.HeaderFields.fill (addr : Sys2Proof.Addr) : Sys2Proof.Laws.HeaderFields.Statement (.fill addr) :=
  fun _ => ⟨Header.op_make _ _ _, Header.addr_make _ _ _, by simp [Instr.header, Instr.payload]⟩
end

