-- ==== Sys2Proof/Machine/Notation.lean ====
section
/-! DEFINITION. The two text forms of a request and LOADB's string operand (30_encoding.md R72). Text is written as a
list of characters. -/
namespace Sys2Proof.Machine

/-- The mnemonic of a request, as spec/opcode_table.json spells it. -/
def mnemonicOf : Instr → List Char
  | .reset => ['R', 'E', 'S', 'E', 'T']
  | .loadb _ _ => ['L', 'O', 'A', 'D', 'B']
  | .readb _ => ['R', 'E', 'A', 'D', 'B']
  | .ishit _ => ['I', 'S', 'H', 'I', 'T']
  | .lookup _ => ['L', 'O', 'O', 'K', 'U', 'P']
  | .fill _ => ['F', 'I', 'L', 'L']

/-- The source's procedure name (30_encoding.md R72). -/
def sourceNameOf : Instr → List Char
  | .reset => ['R', 'e', 's', 'e', 't']
  | .loadb _ _ => ['L', 'o', 'a', 'd', 'B', 'y', 't', 'e', 's']
  | .readb _ => ['R', 'e', 'a', 'd', 'B', 'y', 't', 'e']
  | .ishit _ => ['I', 's', 'H', 'i', 't']
  | .lookup _ => ['L', 'o', 'o', 'k', 'u', 'p']
  | .fill _ => ['F', 'i', 'l', 'l']

/-- One hexadecimal digit, upper case. -/
def hexDigit (d : Nat) : Char :=
  if d < 10 then Char.ofNat (48 + d) else Char.ofNat (55 + d)

/-- `digits` hexadecimal digits of `n`, most significant first, after `0x` ("Addresses are written in hexadecimal
with `0x`", 30_encoding.md R72). -/
def hexText (digits n : Nat) : List Char :=
  ['0', 'x'] ++ ((List.range digits).reverse.map fun k => hexDigit (n / 16 ^ k % 16))

/-- A list of bytes, `[b0, b1, ...]`. The spec does not fix the base of the elements: hexadecimal here,
DESIGN CHOICE (log 17), safe. -/
def bytesText (bytes : List Byte) : List Char :=
  ['['] ++ List.intercalate [',', ' '] (bytes.map fun b => hexText 2 b.toNat) ++ [']']

/-- The operands of a request, separated by a comma. -/
def operandsText : Instr → List Char
  | .reset => []
  | .loadb a bytes => hexText 4 a.toNat ++ [',', ' '] ++ bytesText bytes
  | .readb a => hexText 4 a.toNat
  | .ishit a => hexText 4 a.toNat
  | .lookup a => hexText 4 a.toNat
  | .fill a => hexText 4 a.toNat

/-- The mnemonic form: `READB 0xCAFE` (30_encoding.md R72). -/
def mnemonicForm (i : Instr) : List Char :=
  match operandsText i with
  | [] => mnemonicOf i
  | t => mnemonicOf i ++ [' '] ++ t

/-- The source form: `ReadByte(0xCAFE)` (30_encoding.md R72). -/
def sourceForm (i : Instr) : List Char :=
  sourceNameOf i ++ ['('] ++ operandsText i ++ [')']

/-- A string operand: "a string whose characters are taken as their ASCII codes ... and no terminator added"
(30_encoding.md R72; the codes are the spec's general knowledge G3). A character above ASCII has no code there and the
text has no bytes. -/
def asciiBytes (text : List Char) : Option (List Byte) :=
  if text.all fun c => c.toNat < 128 then some (text.map fun c => BitVec.ofNat 8 c.toNat) else none

/-- `LOADB addr, "text"` (30_encoding.md R72). -/
def loadText (a : Addr) (text : List Char) : Option Instr :=
  (asciiBytes text).map (Instr.loadb a)

end Sys2Proof.Machine
end

