-- ==== Sys2Proof/Tests/Slice0.lean ====
section
/-! SUPPORT. Tests, and for every statement with hypotheses a witness: a concrete state and operands that meet them all.
Expected results are those of 95_test_vectors.md and 30_encoding.md, or worked out by hand from the rules. -/

set_option synthInstance.maxSize 1000

namespace Sys2Proof.Tests
open Sys2Proof Sys2Proof.Machine

/-! ## Helpers -/

/-- A small legal geometry: blocks of 2 bytes, 2 sets of 2 ways, 14 tag bits. The block with tag `t` in set `x` starts at
address `4 t + 2 x`. -/
def tiny (p : Policy) (part : Bool) : Config where
  offsetBits := 1
  indexBits := 1
  tagBits := 14
  associativity := 2
  cacheSizeBytes := 8
  policy := p
  loadPartial := part

/-- Geometry G8 of 95_test_vectors.md section 2.2. -/
def g8 : Config where
  offsetBits := 5
  indexBits := 3
  tagBits := 8
  associativity := 2
  cacheSizeBytes := 512
  policy := .fifo
  loadPartial := false

/-- A geometry for the legality table and the zero-width fields. -/
def geometry (t i o ways size : Nat) : Config where
  offsetBits := o
  indexBits := i
  tagBits := t
  associativity := ways
  cacheSizeBytes := size
  policy := .fifo
  loadPartial := false

/-- A valid clean line. -/
def held (t : Nat) (b0 b1 : Byte) : Line := { tag := t, valid := true, dirty := false, data := [b0, b1] }

/-- An invalid line. -/
def free : Line := { tag := 0, valid := false, dirty := false, data := [0, 0] }

/-- A reachable state of the small geometry: set 0 is full with tags 0 and 1, set 1 empty; bytes 1, 2 at addresses 0, 1 and
3, 4 at 4, 5, and 9 at 8. Way 1 is FIFO's next victim of set 0 and LRU's least recently used. -/
def full (p : Policy) (part : Bool) : State where
  cfg := tiny p part
  phase := .ready
  lines := [[held 0 1 2, held 1 3 4], [free, free]]
  bs := [(0, 1), (1, 2), (4, 3), (5, 4), (8, 9)]
  rr := match p with | .fifo => [1, 0] | .lru => []
  lru := match p with | .fifo => [] | .lru => [[0, 1], [0, 1]]
  pending := []
  response := none

/-- The block of an illegal configuration. -/
def broken : State := State.start (geometry 6 4 6 4 4095)

/-- The state a request leaves. -/
def after (r : Result) : State := match r with | .next t => t | .fault _ => broken | .refused _ => broken

/-- The answer of a request. -/
def answer (r : Result) : Option Response := match r with | .next t => t.response | .fault _ => none | .refused _ => none

/-- A response, in the notation of 95_test_vectors.md. -/
def ok (h f : Bool) (w : Nat) (d : Byte) : Response := { status := .ok, hit := h, filled := f, way := w, data := d }

theorem full_shaped_fifo (part : Bool) : (full .fifo part).Shaped := by
  cases part <;> exact ⟨by decide, rfl, by decide, by decide, by decide, by decide, by decide,
    fun _ => by decide, fun _ => rfl, fun h => absurd h (by decide), fun h => absurd h (by decide)⟩

theorem full_shaped_lru (part : Bool) : (full .lru part).Shaped := by
  cases part <;> exact ⟨by decide, rfl, by decide, by decide, by decide, by decide, by decide,
    fun h => absurd h (by decide), fun h => absurd h (by decide), fun _ => by decide, fun _ => rfl⟩

theorem full_inv_fifo : (full .fifo false).Inv :=
  .inl ⟨full_shaped_fifo false, by decide, by decide, by decide, by decide⟩

theorem full_inv_lru : (full .lru false).Inv :=
  .inl ⟨full_shaped_lru false, by decide, by decide, by decide, by decide⟩

/-! ## WellFormed -/

theorem wf_loadb_replicate (a : Addr) (n : Nat) : (Instr.loadb a (List.replicate n 0)).wf = decide (n < lenLimit) := by
  rw [Instr.wf, List.length_replicate]

/-- The one check: a length that does not fit `LEN` is refused. -/
theorem test_wf_refuses_long_payload : (Instr.loadb 0 (List.replicate 1048576 0)).wf = false :=
  (wf_loadb_replicate _ _).trans (by decide)

theorem test_wf_accepts_longest_payload : (Instr.loadb 0xFFFF (List.replicate 1048575 0)).wf = true :=
  (wf_loadb_replicate _ _).trans (by decide)

/-! ## Decoding: words written out from the encodings of opcode_table.json -/

/-- `0001 0000000000000000 00000000000000000000`. -/
theorem test_decode_reset : decodeTableWord 40 0b0001000000000000000000000000000000000000 = some .reset := by decide

/-- `0010 aaaaaaaaaaaaaaaa llllllllllllllllllll` with `a` = 1111111111111110 and `l` = 3; the payload follows. -/
theorem test_decode_loadb :
    decode (Header.bytes 0b0010111111111111111000000000000000000011 ++ [1, 2, 3]) =
      .ok (.loadb 0xFFFE [1, 2, 3]) := by decide

/-- `0011 aaaaaaaaaaaaaaaa 00000000000000000000` with `a` = 1100101011111110. -/
theorem test_decode_readb : decodeTableWord 40 0b0011110010101111111000000000000000000000 = some (.readb 0xCAFE) := by decide

/-- `0100 aaaaaaaaaaaaaaaa 00000000000000000000` with `a` = 1100101011111110. -/
theorem test_decode_ishit : decodeTableWord 40 0b0100110010101111111000000000000000000000 = some (.ishit 0xCAFE) := by decide

/-- `0101 aaaaaaaaaaaaaaaa 00000000000000000000` with `a` = 0000010000000000. -/
theorem test_decode_lookup : decodeTableWord 40 0b0101000001000000000000000000000000000000 = some (.lookup 0x0400) := by decide

/-- `0110 aaaaaaaaaaaaaaaa 00000000000000000000` with `a` = 0000000100000000. -/
theorem test_decode_fill : decodeTableWord 40 0b0110000000010000000000000000000000000000 = some (.fill 0x0100) := by decide

/-- A table word of LOADB carries `LEN` payload bytes, zero where the word gives no bits (log 14). -/
theorem test_decode_loadb_table_word :
    decodeTableWord 40 0x2FFFE00003 = some (.loadb 0xFFFE [0, 0, 0]) ∧
    decodeTableWord 56 0x22112FFFE00002 = some (.loadb 0xFFFE [0x11, 0x22]) := by decide

/-- The invalid words of 95_test_vectors.md section 6. -/
theorem test_decode_invalid_words :
    [0x0000000000, 0x0CAFE00000, 0x7000000000, 0x8000000000, 0xFFFFFFFFFF, 0x1000000001, 0x1000100000, 0x3CAFE00001,
      0x4000000010, 0x50000FFFFF, 0x6FFFF00001].all (fun w => (decodeTableWord 40 w).isNone) = true := by decide

/-- A payload shorter than `LEN`, one longer, and a header cut short. -/
theorem test_decode_payload_length :
    decode [0x20, 0, 0, 0, 2, 7] = .error .payloadShort ∧ decode [0x20, 0, 0, 0, 1, 7, 8] = .error .payloadLong ∧
    decode [0x3C, 0xAF, 0xE0, 0] = .error .headerShort ∧ decode [0x3C, 0xAF, 0xE0, 0, 0, 0] = .error .payloadLong := by decide

/-- The encode direction of 95_test_vectors.md section 6. -/
theorem test_encode :
    (Instr.readb 0xCAFE).header = 0x3CAFE00000 ∧ (Instr.loadb 0xFFFE [1, 2, 3]).header = 0x2FFFE00003 ∧
    encode (.readb 0xCAFE) = [0x3C, 0xAF, 0xE0, 0, 0] := by decide

/-! ## Text forms (30_encoding.md R72) -/

theorem test_text_forms :
    mnemonicForm (.readb 0xCAFE) = ['R', 'E', 'A', 'D', 'B', ' ', '0', 'x', 'C', 'A', 'F', 'E'] ∧
    sourceForm (.ishit 0xCAFE) = ['I', 's', 'H', 'i', 't', '(', '0', 'x', 'C', 'A', 'F', 'E', ')'] ∧
    mnemonicForm .reset = ['R', 'E', 'S', 'E', 'T'] ∧ sourceForm .reset = ['R', 'e', 's', 'e', 't', '(', ')'] := by decide

/-- The scenario's string is its 13 ASCII codes, and nothing is added. -/
theorem test_text_operand :
    loadText 0 ['h', 'e', 'l', 'l', 'o', ' ', 'w', 'o', 'r', 'l', 'd', '\n', '\x00'] =
      some (.loadb 0 [0x68, 0x65, 0x6C, 0x6C, 0x6F, 0x20, 0x77, 0x6F, 0x72, 0x6C, 0x64, 0x0A, 0x00]) := by decide

/-! ## Geometry: the tables of 95_test_vectors.md section 2 -/

theorem test_legality_table :
    (geometry 6 4 6 4 4096).Legal ∧ ¬ (geometry 6 4 6 4 4095).Legal ∧ ¬ (geometry 6 4 6 4 0).Legal ∧
    ¬ (geometry 6 4 5 4 2048).Legal ∧ ¬ (geometry 7 4 6 4 4096).Legal ∧ ¬ (geometry 6 4 6 0 0).Legal ∧
    (geometry 6 4 6 3 3072).Legal ∧ g8.Legal ∧ (geometry 16 0 0 1 1).Legal ∧ (geometry 0 8 8 1 65536).Legal ∧
    (geometry 0 0 16 1 65536).Legal := by decide

/-- The five quantities of an address. -/
def fields (c : Config) (a : Addr) : List Nat := [tagOf c a, setIndex c a, offsetOf c a, blockStart c a, blockEnd c a]

theorem test_decoder_reference :
    fields Config.reference 0x003F = [0, 0, 63, 0x0000, 0x003F] ∧ fields Config.reference 0x0040 = [0, 1, 0, 0x0040, 0x007F] ∧
    fields Config.reference 0x0400 = [1, 0, 0, 0x0400, 0x043F] ∧ fields Config.reference 0x1234 = [4, 8, 52, 0x1200, 0x123F] ∧
    fields Config.reference 0x8000 = [32, 0, 0, 0x8000, 0x803F] ∧ fields Config.reference 0xCAFE = [50, 11, 62, 0xCAC0, 0xCAFF] ∧
    fields Config.reference 0xFFFF = [63, 15, 63, 0xFFC0, 0xFFFF] := by decide

theorem test_decoder_other_geometries :
    fields g8 0x00FF = [0, 7, 31, 0x00E0, 0x00FF] ∧ fields g8 0x1234 = [18, 1, 20, 0x1220, 0x123F] ∧
    fields (geometry 16 0 0 3 3) 0xCAFE = [51966, 0, 0, 0xCAFE, 0xCAFE] ∧
    fields (geometry 0 8 8 1 65536) 0xFFFF = [0, 255, 255, 0xFF00, 0xFFFF] ∧
    fields (geometry 0 0 16 1 65536) 0xCAFE = [0, 0, 51966, 0x0000, 0xFFFF] := by decide

/-- `WayBits = max(1, ceil(log2(Associativity)))`. -/
theorem test_way_bits :
    [1, 2, 3, 4, 5, 8, 9].map (fun n => (geometry 16 0 0 n n).wayBits) = [1, 1, 2, 2, 3, 3, 4] := by decide

/-! ## One step of each request -/

/-- RESET from a full state: no valid line, no byte left, the pointers at 0 (10_state.md R27). -/
theorem test_reset :
    (after (exec .reset (full .fifo false))).lines = [[free, free], [free, free]] ∧
    (after (exec .reset (full .fifo false))).bs = [] ∧ (after (exec .reset (full .fifo false))).rr = [0, 0] := by decide

/-- RESET under LRU restores the recency lists; in ConfigFault it answers CONFIG_ERROR. -/
theorem test_reset_lru_and_fault :
    (after (exec .reset { full .lru false with lru := [[1, 0], [1, 0]] })).lru = [[0, 1], [0, 1]] ∧
    answer (exec .reset broken) = some (errorResponse .configError) := by decide

/-- LOADB that ends at the last byte of the store fits (95_test_vectors.md P5). -/
theorem test_loadb_exact_fit :
    (after (exec (.loadb 0xFFFE [1, 2]) (full .fifo false))).bs =
      [(0, 1), (1, 2), (4, 3), (5, 4), (8, 9), (65534, 1), (65535, 2)] ∧
    answer (exec (.loadb 0xFFFE [1, 2]) (full .fifo false)) = some (ok false false 0 0) := by decide

/-- LOADB one byte too long: nothing is written, or under LoadPartial the two bytes that exist; address 0 never. -/
theorem test_loadb_out_of_range :
    (after (exec (.loadb 0xFFFE [7, 8, 9]) (full .fifo false))).bs = (full .fifo false).bs ∧
    (after (exec (.loadb 0xFFFE [7, 8, 9]) (full .fifo true))).bs =
      [(0, 1), (1, 2), (4, 3), (5, 4), (8, 9), (65534, 7), (65535, 8)] ∧
    answer (exec (.loadb 0xFFFE [7, 8, 9]) (full .fifo true)) = some (errorResponse .outOfRange) := by decide

/-- READB that misses in a full set, FIFO: way 1, the pointer's, is evicted and the pointer wraps to 0. -/
theorem test_readb_evicts_fifo :
    answer (exec (.readb 8) (full .fifo false)) = some (ok false true 1 9) ∧
    (after (exec (.readb 8) (full .fifo false))).lines = [[held 0 1 2, held 2 9 0], [free, free]] ∧
    (after (exec (.readb 8) (full .fifo false))).rr = [0, 0] := by decide

/-- READB that hits, LRU: the byte is the line's, not the store's, and the way moves to the front. -/
theorem test_readb_hit_lru :
    answer (exec (.readb 5) { full .lru false with bs := [] }) = some (ok true false 1 4) ∧
    (after (exec (.readb 5) (full .lru false))).lru = [[1, 0], [0, 1]] := by decide

/-- ISHIT compares the whole tag and asks for a valid line (95_test_vectors.md P8): set 1 holds tag 3 in way 0; tags 1, 2
and 7 miss, and tag 0 misses although the free way 1 stores tag 0. -/
theorem test_ishit_whole_tag :
    [0x6, 0xA, 0x1E, 0x2, 0xE].map (fun a =>
      (answer (exec (.ishit a) { full .fifo false with lines := [[free, free], [held 3 0 0, free]] })).map Response.hit) =
      [some false, some false, some false, some false, some true] := by decide

/-- LOOKUP answers the lowest matching way, and a miss answers way 0 (95_test_vectors.md K6, K2). -/
theorem test_lookup_lowest_way :
    answer (exec (.lookup 6) { full .fifo false with
      cfg := geometry 14 1 1 3 12, lines := [[free, free, free], [free, held 1 0 0, held 1 5 5]] }) = some (ok true false 1 0) ∧
    answer (exec (.lookup 8) (full .fifo false)) = some (ok false false 0 0) := by decide

/-- FILL of a resident block reloads it in its own way and moves no pointer (95_test_vectors.md P4). -/
theorem test_fill_resident :
    answer (exec (.fill 1) { full .fifo false with bs := [(0, 0xBB)] }) = some (ok true true 0 0) ∧
    (after (exec (.fill 1) { full .fifo false with bs := [(0, 0xBB)] })).lines =
      [[held 0 0xBB 0, held 1 3 4], [free, free]] ∧
    (after (exec (.fill 1) { full .fifo false with bs := [(0, 0xBB)] })).rr = [1, 0] := by decide

/-- FILL that misses takes the lowest invalid way before the policy is asked, and the last of the recency list in a full
set (43_replacement.md R111, R115). -/
theorem test_fill_victim :
    answer (exec (.fill 8) { full .fifo false with lines := [[free, held 1 3 4], [free, free]] }) = some (ok false true 0 0) ∧
    answer (exec (.fill 8) (full .lru false)) = some (ok false true 1 0) := by decide

/-- The bytes presented run as one request; a store keeps its canonical form when a zero is written. -/
theorem test_step_presented :
    (after (step { full .fifo false with pending := [[0x20, 0, 0, 0, 1, 0], [0]] })).bs =
      [(1, 2), (4, 3), (5, 4), (8, 9)] ∧
    (after (step { full .fifo false with pending := [[0x20, 0, 0, 0, 1, 0], [0]] })).pending = [[0]] := by decide

/-- A table word runs as the first request after reset. -/
theorem test_first_after_reset :
    answer (step (State.reset.withFetchWord 40 0x3CAFE00000)) = some (ok false true 0 0) := by decide

/-! ## Witnesses: states and operands that meet the hypotheses of the statements -/

theorem witness_DecodeOfEncode : (Instr.loadb 0xFFFE [1, 2, 3]).wf = true := by decide

theorem witness_EncodeOfDecode : decode [0x3C, 0xAF, 0xE0, 0x00, 0x00] = .ok (.readb 0xCAFE) := by decide

theorem witness_HeaderWordLayout :
    (Instr.fill 0xFFFF).wf = true ∧ ∀ a bytes, Instr.fill 0xFFFF ≠ .loadb a bytes := ⟨by decide, fun _ _ h => by cases h⟩

theorem witness_OpcodeTableRows :
    ([1, 2, 3] : List Byte).length = (if (0x2FFFE00003 : Header).extractLsb' 36 4 = 2 then
      ((0x2FFFE00003 : Header).extractLsb' 0 20).toNat else 0) ∧
    ([] : List Byte).length = (if (0x7000000000 : Header).extractLsb' 36 4 = 2 then
      ((0x7000000000 : Header).extractLsb' 0 20).toNat else 0) ∧
    7 ≤ ((0x7000000000 : Header).extractLsb' 36 4).toNat ∧ (0x0CAFE00000 : Header).extractLsb' 36 4 = 0 := by decide

/-- An illegal word of each kind, presented; and a legal one. -/
theorem witness_IllegalWordsAreRefused :
    ((0x7000000000 : Header).extractLsb' 36 4).toNat = 7 ∧
    (((0x1000100000 : Header).extractLsb' 36 4).toNat = 1 ∧ ((0x1000100000 : Header).extractLsb' 20 16).toNat ≠ 0) ∧
    (((0x6FFFF00001 : Header).extractLsb' 36 4).toNat = 6 ∧ ((0x6FFFF00001 : Header).extractLsb' 0 20).toNat ≠ 0) ∧
    (((0x2000000002 : Header).extractLsb' 36 4).toNat = 2 ∧ ([7] : List Byte).length ≠ ((0x2000000002 : Header).extractLsb' 0 20).toNat) ∧
    (presentNext (full .fifo false) ((0x7000000000 : Header).bytes ++ [])).pending = ((0x7000000000 : Header).bytes ++ []) :: [] ∧
    (((0x3CAFE00000 : Header).extractLsb' 36 4).toNat = 3 ∧ ((0x3CAFE00000 : Header).extractLsb' 0 20).toNat = 0) := by decide

theorem witness_WorkedEncodings : (List.replicate 65536 (0 : Byte)).length = 65536 := List.length_replicate

theorem witness_StepRunsPresentedRequest :
    (presentNext (full .fifo false) [0x50, 0x40, 0, 0, 0]).pending = [0x50, 0x40, 0, 0, 0] :: [] ∧
    decode [0x50, 0x40, 0, 0, 0] = .ok (.lookup 0x0400) := by decide

theorem witness_IdleStepChangesNothing : State.reset.pending = [] := by decide

theorem witness_TableWordIsFetched : decodeTableWord 40 0x6010000000 = some (.fill 0x0100) := by decide

theorem witness_PresentedRunIsRequestRun :
    (∀ i ∈ [Instr.readb 8, .ishit 8], i.wf = true) ∧
    (runRequests [.readb 8, .ishit 8] (full .fifo false)).map Prod.fst =
      some [some (ok false true 1 9), some (ok true false 0 0)] := by decide

theorem witness_ConfigurationIsConstant :
    exec (.fill 8) (full .lru false) = .next (after (exec (.fill 8) (full .lru false))) := rfl

/-- Every clause: no tag bits, sixteen tag bits, no index bits, no offset bits. -/
theorem witness_AddressFields :
    (geometry 0 8 8 1 65536).Legal ∧ (geometry 0 8 8 1 65536).tagBits = 0 ∧
    (geometry 16 0 0 1 1).Legal ∧ (geometry 16 0 0 1 1).tagBits = 16 ∧ (geometry 16 0 0 1 1).indexBits = 0 ∧
    (geometry 16 0 0 1 1).offsetBits = 0 := by decide

theorem witness_BlockBounds : Config.reference.Legal := by decide

theorem witness_AddressRoundTrip : g8.Legal := by decide

/-- The last triple in range. -/
theorem witness_DecompositionIsUnique :
    Config.reference.Legal ∧ 63 < 2 ^ Config.reference.tagBits ∧ 15 < Config.reference.numSets ∧
    63 < Config.reference.blockSize := by decide

theorem witness_PartitionIsUniform : Config.reference.Legal ∧ 15 < Config.reference.numSets := by decide

/-- Both ends of a block. -/
theorem witness_SameBlockSameFields :
    Config.reference.Legal ∧ blockStart Config.reference 0xCAFE ≤ (0xCAC0 : Addr).toNat ∧
    (0xCAC0 : Addr).toNat ≤ blockEnd Config.reference 0xCAFE ∧ blockStart Config.reference 0xCAFE ≤ (0xCAFF : Addr).toNat ∧
    (0xCAFF : Addr).toNat ≤ blockEnd Config.reference 0xCAFE := by decide

theorem witness_SystemStartIsReset :
    (tiny .fifo false).Legal ∧ (full .fifo false).cfg = tiny .fifo false ∧ (full .fifo false).phase = .ready ∧
    exec .reset (full .fifo false) = .next (after (exec .reset (full .fifo false))) ∧ ¬ (geometry 6 4 6 0 0).Legal :=
  ⟨by decide, rfl, rfl, rfl, by decide⟩

theorem witness_ConfigFaultAnswersEveryRequest :
    ¬ (geometry 6 4 6 4 4095).Legal ∧ broken.phase = .configFault := by decide

theorem witness_ReadyRequestsRespond : (full .fifo true).Shaped := full_shaped_fifo true

/-- A block in phase Ready and one in ConfigFault. -/
theorem witness_StepNeverFaults : (full .fifo false).Inv ∧ broken.Inv :=
  ⟨full_inv_fifo, .inr ⟨by decide, rfl, rfl, rfl, rfl, rfl⟩⟩

/-- Each of the two cases, each of the five shapes of an answer. -/
theorem witness_ResponseFields :
    (full .lru false).Shaped ∧ exec (.readb 5) (full .lru false) = .next (after (exec (.readb 5) (full .lru false))) ∧
    (after (exec (.readb 5) (full .lru false))).response = some (ok true false 1 4) ∧
    (after (exec (.fill 8) (full .lru false))).response = some (ok false true 1 0) ∧
    (after (exec (.loadb 0xFFFF [1, 2]) (full .lru false))).response = some (errorResponse .outOfRange) ∧
    broken.phase = .configFault ∧ exec (.readb 5) broken = .next (after (exec (.readb 5) broken)) :=
  ⟨full_shaped_lru false, rfl, by decide, by decide, by decide, rfl, rfl⟩

theorem witness_ResetEffect :
    (full .fifo false).phase = .ready ∧ (full .fifo false).cfg.Legal ∧ (full .fifo false).cfg.policy = .fifo ∧
    (full .lru false).cfg.Legal ∧ (full .lru false).cfg.policy = .lru ∧ ¬ broken.cfg.Legal := by decide

theorem witness_ColdCacheMiss :
    (full .fifo false).phase = .ready ∧ (full .fifo false).cfg.Legal ∧
    exec .reset (full .fifo false) = .next (after (exec .reset (full .fifo false))) := ⟨rfl, by decide, rfl⟩

theorem witness_AfterResetReadsZero :
    (full .lru false).phase = .ready ∧ (full .lru false).cfg.Legal ∧
    exec .reset (full .lru false) = .next (after (exec .reset (full .lru false))) := ⟨rfl, by decide, rfl⟩

/-- A hit, a miss, and ConfigFault; also for ISHIT. -/
theorem witness_LookupEffect :
    (full .fifo false).Shaped ∧ FirstMatch (full .fifo false) 4 1 ∧ Resident (full .fifo false) 4 ∧
    ¬ Resident (full .fifo false) 8 ∧ broken.phase = .configFault :=
  ⟨full_shaped_fifo false, by decide, by decide, by decide, rfl⟩

theorem witness_IshitEffect : (full .fifo false).Shaped ∧ broken.phase = .configFault := ⟨full_shaped_fifo false, rfl⟩

/-- Two states with other data and another pointer. -/
theorem witness_LookupReadsOneSet :
    (full .fifo false).Shaped ∧ ({ full .fifo false with bs := [], rr := [0, 0] } : State).Shaped ∧
    ({ full .fifo false with bs := [], rr := [0, 0] } : State).cfg = (full .fifo false).cfg ∧
    (∀ w < (full .fifo false).cfg.associativity,
      (lineAt { full .fifo false with bs := [], rr := [0, 0] } (setIndex (full .fifo false).cfg 4) w).valid =
        (lineAt (full .fifo false) (setIndex (full .fifo false).cfg 4) w).valid ∧
      (lineAt { full .fifo false with bs := [], rr := [0, 0] } (setIndex (full .fifo false).cfg 4) w).tag =
        (lineAt (full .fifo false) (setIndex (full .fifo false).cfg 4) w).tag) ∧
    Instr.lookup 4 ∈ [Instr.lookup 4, Instr.ishit 4] ∧ Instr.ishit 4 ∈ [Instr.lookup 4, Instr.ishit 4] :=
  ⟨full_shaped_fifo false, ⟨by decide, rfl, by decide, by decide, by decide, by decide, by decide,
    fun _ => by decide, fun _ => rfl, fun h => absurd h (by decide), fun h => absurd h (by decide)⟩, rfl, by decide,
    by decide, by decide⟩

theorem witness_BlockWideAgreement :
    blockStart (full .fifo false).cfg 4 ≤ (5 : Addr).toNat ∧ (5 : Addr).toNat ≤ blockEnd (full .fifo false).cfg 4 := by decide

theorem witness_ReadbEffect :
    (full .lru false).Shaped ∧ FirstMatch (full .lru false) 1 0 ∧ ¬ Resident (full .lru false) 8 ∧
    broken.phase = .configFault := ⟨full_shaped_lru false, by decide, by decide, rfl⟩

theorem witness_FillEffect :
    (full .fifo false).Shaped ∧ FirstMatch (full .fifo false) 1 0 ∧ ¬ Resident (full .fifo false) 0xFFFF ∧
    broken.phase = .configFault := ⟨full_shaped_fifo false, by decide, by decide, rfl⟩

/-- A fill and the other end of its block; a hit that a further fill of the set ends. -/
theorem witness_FillThenHit :
    (full .fifo false).Shaped ∧ exec (.fill 8) (full .fifo false) = .next (after (exec (.fill 8) (full .fifo false))) ∧
    blockStart (full .fifo false).cfg 8 ≤ (9 : Addr).toNat ∧ (9 : Addr).toNat ≤ blockEnd (full .fifo false).cfg 8 ∧
    FirstMatch (full .fifo false) 4 1 := ⟨full_shaped_fifo false, rfl, by decide, by decide, by decide⟩

theorem witness_FillIsIdempotent :
    (full .fifo false).Shaped ∧ exec (.fill 8) (full .fifo false) = .next (after (exec (.fill 8) (full .fifo false))) ∧
    (after (exec (.fill 8) (full .fifo false))).response = some (ok false true 1 0) := ⟨full_shaped_fifo false, rfl, rfl⟩

/-- A store that agrees on the block of address 8 and on no other byte listed. -/
theorem witness_FillReadsOnlyTheBlock :
    (full .fifo false).Shaped ∧
    (∀ k < (full .fifo false).cfg.blockSize, Memory.read [(8, 9), (70, 1)] (blockStart (full .fifo false).cfg 8 + k) =
      (full .fifo false).bs.read (blockStart (full .fifo false).cfg 8 + k)) ∧
    Instr.readb 8 ∈ [Instr.fill 8, Instr.readb 8] ∧
    exec (.readb 8) (full .fifo false) = .next (after (exec (.readb 8) (full .fifo false))) ∧
    (after (exec (.readb 8) (full .fifo false))).response = some (ok false true 1 9) ∧
    exec (.loadb 8 [1]) (after (exec (.readb 8) (full .fifo false))) =
      .next (after (exec (.loadb 8 [1]) (after (exec (.readb 8) (full .fifo false))))) :=
  ⟨full_shaped_fifo false, by decide, by decide, rfl, by decide, rfl⟩

theorem witness_SecondReadHitsWithTheSameByte :
    (full .lru false).Shaped ∧ exec (.readb 8) (full .lru false) = .next (after (exec (.readb 8) (full .lru false))) ∧
    (after (exec (.readb 8) (full .lru false))).response = some (ok false true 1 9) := ⟨full_shaped_lru false, rfl, by decide⟩

/-- States that differ in set 1 alone. -/
theorem witness_SetsAreIndependent :
    (full .fifo false).Shaped ∧ ({ full .fifo false with lines := [[held 0 1 2, held 1 3 4], [held 5 6 7, free]] } : State).Shaped ∧
    setAt { full .fifo false with lines := [[held 0 1 2, held 1 3 4], [held 5 6 7, free]] } (setIndex (full .fifo false).cfg 8) =
      setAt (full .fifo false) (setIndex (full .fifo false).cfg 8) ∧
    exec (.fill 8) { full .fifo false with lines := [[held 0 1 2, held 1 3 4], [held 5 6 7, free]] } =
      .next (after (exec (.fill 8) { full .fifo false with lines := [[held 0 1 2, held 1 3 4], [held 5 6 7, free]] })) ∧
    Instr.fill 8 ∈ [Instr.fill 8, Instr.readb 8] ∧
    exec (.fill 8) (full .fifo false) = .next (after (exec (.fill 8) (full .fifo false))) ∧
    (1 : Nat) ≠ setIndex (full .fifo false).cfg 8 :=
  ⟨full_shaped_fifo false, ⟨by decide, rfl, by decide, by decide, by decide, by decide, by decide,
    fun _ => by decide, fun _ => rfl, fun h => absurd h (by decide), fun h => absurd h (by decide)⟩, by decide, rfl, by decide,
    rfl, by decide⟩

/-- Both sides of the range check at the last address, and ConfigFault. -/
theorem witness_LoadbEffect :
    (full .fifo false).phase = .ready ∧ (full .fifo false).bs.wf = true ∧
    (0xFFFF : Addr).toNat + ([1] : List Byte).length ≤ 65536 ∧
    65536 < (0xFFFF : Addr).toNat + ([1, 2] : List Byte).length ∧ broken.phase = .configFault := by decide

theorem witness_LoadbOutOfRange :
    (full .fifo true).phase = .ready ∧ (full .fifo true).bs.wf = true ∧ (full .fifo true).cfg.loadPartial = true ∧
    (full .fifo false).cfg.loadPartial = false ∧ 65536 < (0xFFFF : Addr).toNat + ([1, 2] : List Byte).length ∧
    (0xFFFF : Addr).toNat + 0 ≤ 65535 := by decide

/-- Each clause; a LOADB that fits up to the last byte, and one that does not, with another canonical store. -/
theorem witness_StoreReadersAndWriters :
    (tiny .fifo false).Legal ∧ ((full .fifo false).bs.wf = true ∧ (full .fifo false).bs.read 8 ≠ 0) ∧
    exec .reset (full .fifo false) = .next (after (exec .reset (full .fifo false))) ∧
    exec (.fill 8) (full .fifo false) = .next (after (exec (.fill 8) (full .fifo false))) ∧
    (Instr.fill 8 ≠ .reset ∧ ∀ a bytes, Instr.fill 8 ≠ .loadb a bytes) ∧
    (full .fifo false).Shaped ∧ Resident (full .fifo false) 5 ∧
    exec (.readb 5) (full .fifo false) = .next (after (exec (.readb 5) (full .fifo false))) ∧
    exec (.loadb 0xFFFF [1]) (full .fifo false) = .next (after (exec (.loadb 0xFFFF [1]) (full .fifo false))) ∧
    exec (.loadb 0xFFFF [1, 2]) (full .fifo true) = .next (after (exec (.loadb 0xFFFF [1, 2]) (full .fifo true))) ∧
    Memory.wf [(70, 1), (65535, 9)] = true :=
  ⟨by decide, by decide, rfl, rfl, ⟨by decide, fun _ _ h => by cases h⟩, full_shaped_fifo false, by decide, rfl, rfl, rfl,
    by decide⟩

theorem witness_LoadbDoesNotReachResidentLines :
    (full .fifo false).Shaped ∧ Resident (full .fifo false) 5 ∧
    exec (.loadb 4 [0xAA, 0xBB]) (full .fifo false) = .next (after (exec (.loadb 4 [0xAA, 0xBB]) (full .fifo false))) :=
  ⟨full_shaped_fifo false, by decide, rfl⟩

theorem witness_LoadedByteIsSeen :
    (full .fifo false).Shaped ∧ ¬ Resident (full .fifo false) 0xFFFF ∧
    exec (.loadb 0xFFFF [0xAA]) (full .fifo false) = .next (after (exec (.loadb 0xFFFF [0xAA]) (full .fifo false))) ∧
    exec (.fill 0xFFFF) (after (exec (.loadb 0xFFFF [0xAA]) (full .fifo false))) =
      .next (after (exec (.fill 0xFFFF) (after (exec (.loadb 0xFFFF [0xAA]) (full .fifo false))))) :=
  ⟨full_shaped_fifo false, by decide, rfl, rfl⟩

/-- A full set and one that is not. -/
theorem witness_VictimContract :
    (full .lru false).Shaped ∧ 0 < (full .lru false).cfg.numSets ∧ 1 < (full .lru false).cfg.numSets ∧
    SetFull (full .lru false) 0 ∧ ¬ SetFull (full .lru false) 1 ∧ IsVictim (full .lru false) 0 1 ∧
    IsVictim (full .lru false) 1 0 :=
  ⟨full_shaped_lru false, by decide, by decide, by decide, by decide, by decide, by decide⟩

theorem witness_UsesRecorded :
    (full .lru false).Shaped ∧ (full .lru false).cfg.policy = .lru ∧
    exec (.readb 5) (full .lru false) = .next (after (exec (.readb 5) (full .lru false))) ∧
    (after (exec (.readb 5) (full .lru false))).response = some (ok true false 1 4) ∧
    (full .fifo false).Shaped ∧ (full .fifo false).cfg.policy = .fifo :=
  ⟨full_shaped_lru false, rfl, rfl, by decide, full_shaped_fifo false, rfl⟩

/-- An eviction, a hit and a fill of a free way. -/
theorem witness_FifoPointerMovesOnlyOnEviction :
    (full .fifo false).Shaped ∧ (full .fifo false).cfg.policy = .fifo ∧
    (setIndex (full .fifo false).cfg 8 = 0 ∧ ¬ Resident (full .fifo false) 8 ∧ SetFull (full .fifo false) 0) ∧
    (setIndex (full .fifo false).cfg 5 = 0 ∧ Resident (full .fifo false) 5) ∧
    (setIndex (full .fifo false).cfg 2 = 1 ∧ ¬ SetFull (full .fifo false) 1) ∧
    exec (.readb 8) (full .fifo false) = .next (after (exec (.readb 8) (full .fifo false))) :=
  ⟨full_shaped_fifo false, rfl, by decide, by decide, by decide, rfl⟩

/-- The order of installation of `full`: way 1 before way 0 in set 0. -/
theorem witness_FifoEvictsTheOldest :
    (tiny .fifo false).Legal ∧ (full .fifo false).Inv ∧ (full .fifo false).phase = .ready ∧
    (full .fifo false).cfg.policy = .fifo ∧ (full .fifo false).FifoOrdered (fun x => if x = 0 then [1, 0] else []) ∧
    exec (.fill 8) (full .fifo false) = .next (after (exec (.fill 8) (full .fifo false))) ∧
    0 < (full .fifo false).cfg.numSets ∧ SetFull (full .fifo false) 0 :=
  ⟨by decide, full_inv_fifo, rfl, rfl, by unfold State.FifoOrdered; decide, rfl, by decide, by decide⟩

/-- The order of use of `full`: way 0 after way 1 in set 0. -/
theorem witness_LruEvictsTheLeastRecentlyUsed :
    (tiny .lru false).Legal ∧ (full .lru false).Inv ∧ (full .lru false).phase = .ready ∧
    (full .lru false).cfg.policy = .lru ∧ (full .lru false).LruOrdered (fun x => if x = 0 then [0, 1] else []) ∧
    exec (.fill 8) (full .lru false) = .next (after (exec (.fill 8) (full .lru false))) ∧
    0 < (full .lru false).cfg.numSets ∧ SetFull (full .lru false) 0 :=
  ⟨by decide, full_inv_lru, rfl, rfl, by unfold State.LruOrdered; decide, rfl, by decide, by decide⟩

/-- A miss in a full set with a resident block beside it, and one in a set that is not full. -/
theorem witness_ConflictMiss :
    (full .fifo false).Shaped ∧ (full .fifo false).Uniq ∧ ¬ Resident (full .fifo false) 8 ∧
    exec (.fill 8) (full .fifo false) = .next (after (exec (.fill 8) (full .fifo false))) ∧
    SetFull (full .fifo false) (setIndex (full .fifo false).cfg 8) ∧ Resident (full .fifo false) 0 ∧
    ¬ Resident (full .fifo false) 2 ∧ ¬ SetFull (full .fifo false) (setIndex (full .fifo false).cfg 2) :=
  ⟨full_shaped_fifo false, by decide, by decide, rfl, by decide, by decide, by decide, by decide⟩

/-- A way the configured policy would not take: way 0 of the full set. -/
theorem witness_FillLawsHoldForAnyPolicy :
    (full .fifo false).Shaped ∧ (full .fifo false).Uniq ∧ ¬ Resident (full .fifo false) 8 ∧
    0 < (full .fifo false).cfg.associativity ∧ SetFull (full .fifo false) (setIndex (full .fifo false).cfg 8) ∧
    blockStart (full .fifo false).cfg 8 ≤ (9 : Addr).toNat ∧ (9 : Addr).toNat ≤ blockEnd (full .fifo false).cfg 8 :=
  ⟨full_shaped_fifo false, by decide, by decide, by decide, by decide, by decide, by decide⟩

theorem witness_LineTransitions :
    ((tiny .fifo false).Legal ∧ 1 < (tiny .fifo false).numSets ∧ 1 < (tiny .fifo false).associativity) ∧
    (full .fifo false).Shaped ∧ (full .fifo false).Clean ∧ 0 < (full .fifo false).cfg.numSets ∧
    1 < (full .fifo false).cfg.associativity ∧
    exec (.fill 8) (full .fifo false) = .next (after (exec (.fill 8) (full .fifo false))) ∧
    (after (exec (.fill 8) (full .fifo false))).response = some (ok false true 1 0) :=
  ⟨by decide, full_shaped_fifo false, by decide, by decide, by decide, rfl, by decide⟩

theorem witness_UniqueTags :
    (full .fifo false).phase = .ready ∧ (full .fifo false).cfg.Legal ∧
    exec .reset (full .fifo false) = .next (after (exec .reset (full .fifo false))) ∧ (full .fifo false).Shaped ∧
    (full .fifo false).Uniq ∧ exec (.fill 8) (full .fifo false) = .next (after (exec (.fill 8) (full .fifo false))) :=
  ⟨rfl, by decide, rfl, full_shaped_fifo false, by decide, rfl⟩

theorem witness_StepKeepsInv :
    (presentNext (full .fifo false) [0x60, 0x00, 0x80, 0, 0]).Inv ∧
    step (presentNext (full .fifo false) [0x60, 0x00, 0x80, 0, 0]) =
      .next (after (step (presentNext (full .fifo false) [0x60, 0x00, 0x80, 0, 0]))) :=
  ⟨.inl ⟨(full_shaped_fifo false).withPending _, by decide, by decide, by decide, by decide⟩, rfl⟩

theorem full_coherent : (full .fifo false).Coherent := by decide

/-- The present store is a snapshot of every line of `full`. -/
theorem witness_LinesAreSnapshots :
    (tiny .fifo false).Legal ∧ (full .fifo false).Shaped ∧
    (full .fifo false).SnapshotOf (fun _ _ => some (full .fifo false).bs) ∧
    exec (.readb 5) (full .fifo false) = .next (after (exec (.readb 5) (full .fifo false))) ∧ FirstMatch (full .fifo false) 5 1 :=
  ⟨by decide, full_shaped_fifo false, fun x hx w hw hv => ⟨_, rfl, full_coherent x hx w hw hv⟩, rfl, by decide⟩

/-- A LOADB into a block that is not resident. -/
theorem witness_CacheIsTransparent :
    (full .fifo false).Shaped ∧ (full .fifo false).Coherent ∧ AvoidsResident (full .fifo false) (.loadb 8 [0xAA]) ∧
    exec (.loadb 8 [0xAA]) (full .fifo false) = .next (after (exec (.loadb 8 [0xAA]) (full .fifo false))) := by
  refine ⟨full_shaped_fifo false, full_coherent, fun b h1 h2 => ?_, rfl⟩
  have h3 : (8 : Addr).toNat = 8 := rfl
  have h4 : ([0xAA] : List Byte).length = 1 := rfl
  have : b = 8 := BitVec.eq_of_toNat_eq (by omega)
  subst this; decide

/-- Two blocks of one configuration with different contents. -/
theorem witness_ReplayAfterResetIsDetermined :
    (full .fifo false).phase = .ready ∧ (State.start (tiny .fifo false)).phase = .ready ∧ (full .fifo false).cfg.Legal ∧
    (State.start (tiny .fifo false)).cfg = (full .fifo false).cfg := by decide

end Sys2Proof.Tests
end

section
/-! Requests and the queue: no request reads or writes the requests still to run, so a run from a block is the run from
the same block with another queue (30_encoding.md R75), and RESET forgets all else (00_scope.md R9). -/
namespace Sys2Proof.Machine

/-! ## No request reads the requests still to run -/

theorem whenReady_withPending {s t : State} {run run' : Result} (fs : List (List Byte))
    (hrun : run = .next t → run' = .next (withPending t fs)) (h : whenReady s run = .next t) :
    whenReady (withPending s fs) run' = .next (withPending t fs) := by
  cases hp : s.phase with
  | ready =>
    rw [whenReady_ready hp] at h
    rw [whenReady_ready (by exact hp)]
    exact hrun h
  | configFault =>
    rw [whenReady_configFault hp] at h
    rw [whenReady_configFault (by exact hp)]
    cases h; rfl

theorem execReset_withPending {s t : State} (fs : List (List Byte)) (h : execReset s = .next t) :
    execReset (withPending s fs) = .next (withPending t fs) := by
  refine whenReady_withPending fs (fun hrun => ?_) h
  rw [withPending_cfg]
  split at hrun
  · next hlegal => rw [if_pos hlegal]; cases hrun; rfl
  · next hillegal => rw [if_neg hillegal]; cases hrun; rfl

theorem execLoadb_withPending {s t : State} {a : Addr} {bytes : List Byte} (fs : List (List Byte))
    (h : execLoadb a bytes s = .next t) : execLoadb a bytes (withPending s fs) = .next (withPending t fs) := by
  refine whenReady_withPending fs (fun hrun => ?_) h
  rw [withPending_cfg]
  split at hrun
  · next hout =>
    rw [if_pos hout]
    split at hrun
    · next hpart => rw [if_pos hpart]; exact storeBytes_withPending fs hrun
    · next hpart => rw [if_neg hpart]; cases hrun; rfl
  · next hin => rw [if_neg hin]; exact storeBytes_withPending fs hrun

theorem execReadb_withPending {s t : State} {a : Addr} (fs : List (List Byte)) (h : execReadb a s = .next t) :
    execReadb a (withPending s fs) = .next (withPending t fs) := by
  refine whenReady_withPending fs (fun hrun => ?_) h
  rw [lookup_withPending, fillBlock_withPending, withPending_cfg]
  cases hl : lookup s a with
  | some w =>
    simp only [hl] at hrun
    cases hrun
    simp only [touch_withPending]; rfl
  | none =>
    simp only [hl] at hrun
    cases hf : fillBlock s a with
    | some p => rw [hf] at hrun; cases hrun; rfl
    | none => rw [hf] at hrun; cases hrun

theorem execFill_withPending {s t : State} {a : Addr} (fs : List (List Byte)) (h : execFill a s = .next t) :
    execFill a (withPending s fs) = .next (withPending t fs) := by
  refine whenReady_withPending fs (fun hrun => ?_) h
  rw [lookup_withPending, fillBlock_withPending]
  cases hf : fillBlock s a with
  | some p => rw [hf] at hrun; cases hrun; rfl
  | none => rw [hf] at hrun; cases hrun

theorem execLookup_withPending {s t : State} {a : Addr} (fs : List (List Byte)) (h : execLookup a s = .next t) :
    execLookup a (withPending s fs) = .next (withPending t fs) := by
  refine whenReady_withPending fs (fun hrun => ?_) h
  rw [lookup_withPending]
  cases hl : lookup s a with
  | some w => rw [hl] at hrun; cases hrun; rfl
  | none => rw [hl] at hrun; cases hrun; rfl

theorem execIshit_withPending {s t : State} {a : Addr} (fs : List (List Byte)) (h : execIshit a s = .next t) :
    execIshit a (withPending s fs) = .next (withPending t fs) := by
  refine whenReady_withPending fs (fun hrun => ?_) h
  cases hrun; rfl

/-- A request that completes does the same with any other requests queued behind it. -/
theorem exec_withPending {s t : State} {i : Instr} (fs : List (List Byte)) (h : exec i s = .next t) :
    exec i (withPending s fs) = .next (withPending t fs) := by
  cases i with
  | reset => exact execReset_withPending fs h
  | loadb a bytes => exact execLoadb_withPending fs h
  | readb a => exact execReadb_withPending fs h
  | ishit a => exact execIshit_withPending fs h
  | lookup a => exact execLookup_withPending fs h
  | fill a => exact execFill_withPending fs h

/-! ## Runs of requests -/

/-- A run of one request more is that request and the run from the state it leaves. -/
theorem runRequests_cons {s t : State} {i : Instr} (is : List Instr) (h : exec i s = .next t) :
    runRequests (i :: is) s = (runRequests is t).map fun p => (t.response :: p.1, p.2) := by
  simp only [runRequests, h]

theorem runRequests_cons_eq_some {s u : State} {i : Instr} {is : List Instr} {rs : List (Option Response)}
    (h : runRequests (i :: is) s = some (rs, u)) :
    ∃ t qs, exec i s = .next t ∧ runRequests is t = some (qs, u) ∧ rs = t.response :: qs := by
  cases he : exec i s with
  | next t =>
    rw [runRequests_cons is he, Option.map_eq_some_iff] at h
    obtain ⟨⟨qs, v⟩, hrun, hp⟩ := h
    cases hp
    exact ⟨t, qs, rfl, hrun, rfl⟩
  | fault r => simp [runRequests, he] at h
  | refused r => simp [runRequests, he] at h

/-- A run that completes gives the same responses with any other requests queued, and leaves them queued. -/
theorem runRequests_withPending {is : List Instr} {s t : State} {rs : List (Option Response)} (fs : List (List Byte))
    (h : runRequests is s = some (rs, t)) : runRequests is (withPending s fs) = some (rs, withPending t fs) := by
  induction is generalizing s rs with
  | nil => cases h; rfl
  | cons i is ih =>
    obtain ⟨v, qs, he, hrun, rfl⟩ := runRequests_cons_eq_some h
    rw [runRequests_cons is (exec_withPending fs he), ih hrun]
    rfl

/-- Every request completes in a block of the right shape (60_exceptions.md R157). -/
theorem exec_completes {s : State} (hs : s.Shaped) (i : Instr) : ∃ t, exec i s = .next t := by
  cases i with
  | reset => exact ⟨_, execReset_eq hs.phase hs.legal⟩
  | loadb a bytes =>
    rcases Nat.lt_or_ge addressSpace (a.toNat + bytes.length) with hout | hin
    · exact ⟨_, execLoadb_outside hs.phase hout⟩
    · exact ⟨_, execLoadb_inside hs.phase hin⟩
  | readb a =>
    cases hl : lookup s a with
    | some w => exact ⟨_, execReadb_hit hs.phase hl⟩
    | none => exact ⟨_, execReadb_miss hs hl⟩
  | ishit a => exact ⟨_, execIshit_eq hs.phase a⟩
  | lookup a => exact ⟨_, execLookup_eq hs.phase a⟩
  | fill a => exact ⟨_, execFill_eq hs a⟩

/-- So every list of requests runs to its end. -/
theorem runRequests_completes {s : State} (hs : s.Shaped) (is : List Instr) :
    ∃ rs t, runRequests is s = some (rs, t) := by
  induction is generalizing s with
  | nil => exact ⟨_, _, rfl⟩
  | cons i is ih =>
    obtain ⟨t, he⟩ := exec_completes hs i
    obtain ⟨rs, u, hrun⟩ := ih (hs.exec he)
    exact ⟨_, _, by rw [runRequests_cons is he, hrun]; rfl⟩

/-! ## Replay after RESET (00_scope.md R9) -/

/-- Two blocks of one configuration and phase are the same after RESET, but for the requests still to run. -/
theorem reset_eq_withPending {s u : State} (hc : u.cfg = s.cfg) (hp : u.phase = s.phase) (r : Response) :
    withResponse (resetAll u) r = withPending (withResponse (resetAll s) r) u.pending := by
  simp only [withResponse, withPending, resetAll, hc, hp]

/-- Settles O55: RESET leaves the two blocks the same but for the queue, which no request reads. -/
theorem replayAfterResetIsDetermined : Obligations.ReplayAfterResetIsDetermined := by
  intro is s u hs hu hlegal hcfg
  have hexec_s : exec .reset s = .next (withResponse (resetAll s) okResponse) := execReset_eq hs hlegal
  have hexec_u : exec .reset u = .next (withPending (withResponse (resetAll s) okResponse) u.pending) :=
    (execReset_eq hu (hcfg ▸ hlegal)).trans (congrArg _ (reset_eq_withPending hcfg (hu.trans hs.symm) okResponse))
  have hshaped := (State.Shaped.resetAll hs hlegal).withResponse okResponse
  obtain ⟨rs, t, hrun⟩ := runRequests_completes hshaped is
  refine ⟨some okResponse :: rs, t, ?_, ?_⟩
  · rw [runRequests_cons is hexec_s, hrun]; rfl
  · rw [runRequests_cons is hexec_u, runRequests_withPending u.pending hrun]; rfl

end Sys2Proof.Machine
end

section
/-! The invariants of the state (10_state.md): UNIQ, the state machine of a line, and which requests write the backing
store and which read it. -/
namespace Sys2Proof.Machine

/-! ## UNIQ (10_state.md R15) -/

/-- UNIQ is read off the configuration and the lines. -/
theorem State.Uniq.congr {s t : State} (hu : s.Uniq) (hc : t.cfg = s.cfg) (hl : t.lines = s.lines) : t.Uniq := by
  intro x hx w₁ hw₁ w₂ hw₂ hne
  rw [lineAt_of_lines hl, lineAt_of_lines hl]
  rw [hc] at hx hw₁ hw₂
  exact hu x hx w₁ hw₁ w₂ hw₂ hne

/-- RESET leaves no valid line, so no two of one tag. -/
theorem uniq_resetAll (s : State) : (withResponse (resetAll s) okResponse).Uniq := by
  rintro x hx w₁ hw₁ w₂ - - ⟨hvalid, -⟩
  rw [lineAt_resetAll (s := s) hx hw₁] at hvalid
  cases hvalid

/-- Under UNIQ a way that holds the block of `a` is the way `Fill(a)` writes: on a hit it is the way found, and on a miss
there is none (42_fill.md R100, R101). -/
theorem eq_fillWay_of_match {s : State} (hs : s.Shaped) (hu : s.Uniq) {a : Addr} {w : Nat} (hw : w < s.cfg.associativity)
    (hvalid : (lineAt s (setIndex s.cfg a) w).valid = true)
    (htag : (lineAt s (setIndex s.cfg a) w).tag = tagOf s.cfg a) : w = fillWay s a := by
  cases hl : lookup s a with
  | some w₀ =>
    obtain ⟨hw₀, ⟨hvalid₀, htag₀⟩, -⟩ := (hs.lookup_some a w₀).1 hl
    rw [fillWay_hit hl]
    by_contra hne
    exact hu _ (setIndex_lt s.cfg a) w hw w₀ hw₀ hne ⟨hvalid, hvalid₀, htag.trans htag₀.symm⟩
  | none => exact absurd ⟨w, hw, hvalid, htag⟩ ((hs.lookup_none a).1 hl)

/-- After a fill the way filled is the only one that holds the block. -/
theorem eq_fillWay_of_match_filled {s : State} (hs : s.Shaped) (hu : s.Uniq) {a : Addr} {w : Nat}
    (hw : w < s.cfg.associativity) (hvalid : (lineAt (filled s a) (setIndex s.cfg a) w).valid = true)
    (htag : (lineAt (filled s a) (setIndex s.cfg a) w).tag = tagOf s.cfg a) : w = fillWay s a := by
  by_contra hne
  have hsame := lineAt_filled_other s a (setIndex s.cfg a) w fun e => hne (Prod.mk.inj e).2
  rw [hsame] at hvalid htag
  exact hne (eq_fillWay_of_match hs hu hw hvalid htag)

/-- A fill keeps UNIQ: of two ways with one tag either one is the way filled, and so is the other, or both are as
before. -/
theorem State.Uniq.filled {s : State} (hs : s.Shaped) (hu : s.Uniq) (a : Addr) : (filled s a).Uniq := by
  rintro x hx w₁ hw₁ w₂ hw₂ hne ⟨hv₁, hv₂, htag⟩
  rw [filled_cfg] at hx hw₁ hw₂
  have hnew : (lineAt (Machine.filled s a) (setIndex s.cfg a) (fillWay s a)).tag = tagOf s.cfg a := by
    rw [lineAt_filled_same hs]; rfl
  by_cases h₁ : (x, w₁) = (setIndex s.cfg a, fillWay s a)
  · obtain ⟨rfl, rfl⟩ := Prod.mk.inj h₁
    exact hne (eq_fillWay_of_match_filled hs hu hw₂ hv₂ (htag.symm.trans hnew)).symm
  by_cases h₂ : (x, w₂) = (setIndex s.cfg a, fillWay s a)
  · obtain ⟨rfl, rfl⟩ := Prod.mk.inj h₂
    exact hne (eq_fillWay_of_match_filled hs hu hw₁ hv₁ (htag.trans hnew))
  rw [lineAt_filled_other s a x w₁ h₁] at hv₁ htag
  rw [lineAt_filled_other s a x w₂ h₂] at hv₂ htag
  exact hu x hx w₁ hw₁ w₂ hw₂ hne ⟨hv₁, hv₂, htag⟩

/-- Every request keeps UNIQ. -/
theorem State.Uniq.exec {s t : State} {i : Instr} (hs : s.Shaped) (hu : s.Uniq) (h : exec i s = .next t) : t.Uniq := by
  rcases exec_lines_inv hs h with rfl | ⟨hlines, hcfg, -⟩ | ⟨a, r, -, rfl, -⟩
  · rw [exec_reset_inv hs.phase hs.legal h]; exact uniq_resetAll s
  · exact hu.congr hcfg hlines
  · exact (State.Uniq.filled hs hu a).congr rfl rfl

/-- Settles O50: RESET leaves no valid line, and every request keeps UNIQ. -/
theorem uniqueTags : Obligations.UniqueTags := by
  refine ⟨fun s t hready hlegal h => ?_, fun s t i hs hu h => hu.exec hs h⟩
  rw [exec_reset_inv hready hlegal h]
  exact ⟨uniq_resetAll s, fun x hx w hw => by rw [lineAt_resetAll hx hw]; rfl⟩

/-! ## The state machine of a line (10_state.md R17 to R19) -/

/-- A line that is not dirty is Invalid or Valid/Clean. -/
theorem exists_lineState {l : Line} (h : l.dirty = false) : ∃ q, lineState l = some q := by
  unfold lineState
  rw [h]
  cases l.valid with
  | false => exact ⟨_, rfl⟩
  | true => exact ⟨_, rfl⟩

@[simp] theorem lineState_resetLine (c : Config) : lineState (resetLine c) = some .invalid := rfl

@[simp] theorem lineState_loadedLine (tag : Nat) (block : List Byte) :
    lineState (loadedLine tag block) = some .validClean := rfl

theorem lineAt_start {c : Config} (hc : c.Legal) {x w : Nat} (hx : x < c.numSets) (hw : w < c.associativity) :
    lineAt (State.start c) x w = resetLine c := by
  rw [State.start, if_pos hc]
  exact lineAt_of_resetLines (s := State.ready c) rfl hx hw

/-- A READB or FILL has one address. -/
theorem readb_or_fill_addr_inj {i : Instr} {a b : Addr} (ha : i = .readb a ∨ i = .fill a)
    (hb : i = .readb b ∨ i = .fill b) : a = b := by
  rcases ha with rfl | rfl
  · rcases hb with hb | hb <;> cases hb; rfl
  · rcases hb with hb | hb <;> cases hb; rfl

/-- Settles O49: RESET resets every line; of the other requests one that fills changes the line filled, and one that does
not fill changes none. -/
theorem lineTransitions : Obligations.LineTransitions := by
  refine ⟨fun c x w hc hx hw => by rw [lineAt_start hc hx hw, lineState_resetLine], ?_⟩
  intro s t i x w hs hclean hx hw h
  have hbefore := exists_lineState (hclean x hx w hw)
  refine ⟨hbefore, ?_⟩
  obtain rfl | hi := eq_or_ne i .reset
  · rw [exec_reset_inv hs.phase hs.legal h, lineAt_resetAll hx hw, lineState_resetLine]
    refine ⟨⟨_, rfl⟩, fun _ => ⟨rfl, rfl⟩, fun hne => absurd rfl hne, fun a r hreq => ?_⟩
    rcases hreq with hreq | hreq <;> cases hreq
  rcases (exec_lines_inv hs h).resolve_left hi with
    ⟨hlines, -, r, hresp, hunfilled⟩ | ⟨a, r, hreq, rfl, hfilled, hway, -⟩
  · have hline := lineAt_of_lines hlines x w
    refine ⟨hline ▸ hbefore, fun e => absurd e hi, fun _ => .inl hline, fun _ r' _ _ hresp' hfilled _ => ?_⟩
    obtain rfl : r = r' := Option.some.inj (hresp.symm.trans hresp')
    rw [hunfilled] at hfilled
    cases hfilled
  · have hnew : lineAt (withResponse (filled s a) r) (setIndex s.cfg a) (fillWay s a) =
        loadedLine (tagOf s.cfg a) (blockOf s a) := lineAt_filled_same hs a
    have hthis : (x, w) = (setIndex s.cfg a, fillWay s a) ∨
        lineAt (withResponse (filled s a) r) x w = lineAt s x w :=
      or_iff_not_imp_left.2 (lineAt_filled_other s a x w)
    refine ⟨?_, fun e => absurd e hi, fun _ => ?_, fun b r' hreq' hxb hresp _ hway' => ?_⟩
    · rcases hthis with heq | hsame
      · obtain ⟨rfl, rfl⟩ := Prod.mk.inj heq
        exact ⟨_, by rw [hnew, lineState_loadedLine]⟩
      · rw [hsame]; exact hbefore
    · rcases hthis with heq | hsame
      · obtain ⟨rfl, rfl⟩ := Prod.mk.inj heq
        exact .inr ⟨a, r, hreq, rfl, rfl, hfilled, hway, by rw [hnew, lineState_loadedLine], (filled_loadedInto hs a r).holds⟩
      · exact .inl hsame
    · obtain rfl := readb_or_fill_addr_inj hreq hreq'
      obtain rfl : r = r' := Option.some.inj hresp
      rw [hxb, ← hway', hway, hnew]; rfl

/-! ## Who writes the backing store (10_state.md R16) -/

/-- A byte that does not read as an unlisted one has one of the 65536 addresses. -/
theorem Memory.lt_addressSpace_of_read_ne_zero {m : Memory} (hm : m.wf = true) {a : Nat} (h : m.read a ≠ 0) :
    a < addressSpace := by
  induction m with
  | nil => exact absurd rfl h
  | cons c m ih =>
    obtain ⟨k, v⟩ := c
    obtain ⟨hk, -, -, hwf⟩ := (Memory.wf_cons k v m).1 hm
    rw [Memory.read_cons] at h
    split at h
    · next hka => exact hka ▸ hk
    · exact ih hwf h

theorem read_start {c : Config} (hc : c.Legal) (a : Nat) : (State.start c).bs.read a = 0 := by
  rw [State.start, if_pos hc]; rfl

/-- A request that writes no store when it runs writes none in any phase. -/
theorem whenReady_bs {s t : State} {run : Result} (hrun : run = .next t → t.bs = s.bs)
    (h : whenReady s run = .next t) : t.bs = s.bs := by
  cases hp : s.phase with
  | ready => rw [whenReady_ready hp] at h; exact hrun h
  | configFault => rw [whenReady_configFault hp] at h; cases h; rfl

theorem execReadb_bs {s t : State} {a : Addr} (h : execReadb a s = .next t) : t.bs = s.bs := by
  refine whenReady_bs (fun hrun => ?_) h
  cases hl : lookup s a with
  | some w => simp only [hl] at hrun; cases hrun; simp
  | none =>
    simp only [hl] at hrun
    cases hf : fillBlock s a with
    | some p => rw [hf] at hrun; cases hrun; exact (fillBlock_bs hf :)
    | none => rw [hf] at hrun; cases hrun

theorem execFill_bs {s t : State} {a : Addr} (h : execFill a s = .next t) : t.bs = s.bs := by
  refine whenReady_bs (fun hrun => ?_) h
  cases hf : fillBlock s a with
  | some p => rw [hf] at hrun; cases hrun; exact (fillBlock_bs hf :)
  | none => rw [hf] at hrun; cases hrun

theorem execIshit_bs {s t : State} {a : Addr} (h : execIshit a s = .next t) : t.bs = s.bs := by
  refine whenReady_bs (fun hrun => ?_) h
  cases hrun; rfl

theorem execLookup_bs {s t : State} {a : Addr} (h : execLookup a s = .next t) : t.bs = s.bs := by
  refine whenReady_bs (fun hrun => ?_) h
  cases hl : lookup s a with
  | some w => rw [hl] at hrun; cases hrun; rfl
  | none => rw [hl] at hrun; cases hrun; rfl

/-- RESET and LOADB alone write the store, in every state. -/
theorem exec_bs {s t : State} {i : Instr} (h : exec i s = .next t) (hreset : i ≠ .reset)
    (hloadb : ∀ a bytes, i ≠ .loadb a bytes) : t.bs = s.bs := by
  cases i with
  | reset => exact absurd rfl hreset
  | loadb a bytes => exact absurd rfl (hloadb a bytes)
  | readb a => exact execReadb_bs h
  | ishit a => exact execIshit_bs h
  | lookup a => exact execLookup_bs h
  | fill a => exact execFill_bs h

/-! ## Who reads the backing store (10_state.md R16) -/

/-- RESET reads no store: it replaces it. -/
theorem exec_reset_withStore {s t : State} (hs : s.Shaped) (m : Memory) (h : exec .reset s = .next t) :
    exec .reset (withStore s m) = .next t := by
  rw [exec_reset_inv hs.phase hs.legal h]
  exact execReset_eq (s := withStore s m) hs.phase hs.legal

theorem exec_ishit_withStore {s t : State} (hs : s.Shaped) {a : Addr} (m : Memory) (h : exec (.ishit a) s = .next t) :
    exec (.ishit a) (withStore s m) = .next (withStore t m) := by
  rw [exec_ishit_inv hs.phase h]
  exact execIshit_eq (s := withStore s m) hs.phase a

theorem exec_lookup_withStore {s t : State} (hs : s.Shaped) {a : Addr} (m : Memory) (h : exec (.lookup a) s = .next t) :
    exec (.lookup a) (withStore s m) = .next (withStore t m) := by
  rw [exec_lookup_inv hs.phase h]
  exact execLookup_eq (s := withStore s m) hs.phase a

/-- A READB that hits reads the line, not the store. -/
theorem exec_readb_withStore {s t : State} (hs : s.Shaped) {a : Addr} (hres : Resident s a) (m : Memory)
    (h : exec (.readb a) s = .next t) : exec (.readb a) (withStore s m) = .next (withStore t m) := by
  rcases exec_readb_inv hs h with ⟨w, hfirst, rfl⟩ | ⟨hmiss, -⟩
  · have hl : lookup (withStore s m) a = some w := (hs.lookup_some a w).2 hfirst
    refine (execReadb_hit (s := withStore s m) hs.phase hl).trans ?_
    rw [touch_withStore]; rfl
  · exact absurd hres hmiss

/-! ## The bytes LOADB writes (45_host_api.md R130, R131) -/

/-- The bytes a LOADB writes: all of them when they fit; otherwise, under `LoadPartial`, those whose address exists, and
else none. -/
def writtenBytes (c : Config) (a : Addr) (bytes : List Byte) : List Byte :=
  if a.toNat + bytes.length ≤ addressSpace then bytes
  else if c.loadPartial then bytes.take (addressSpace - a.toNat)
  else []

/-- LOADB in one equation, whether the bytes fit or not. -/
theorem exec_loadb_eq {s : State} (hp : s.phase = .ready) (a : Addr) (bytes : List Byte) :
    exec (.loadb a bytes) s = .next (withResponse
      (withStore s (s.bs.writeAll a.toNat (writtenBytes s.cfg a bytes)))
      (if a.toNat + bytes.length ≤ addressSpace then okResponse else errorResponse .outOfRange)) := by
  unfold writtenBytes
  rcases Nat.lt_or_ge addressSpace (a.toNat + bytes.length) with hout | hin
  · refine (execLoadb_outside hp hout).trans ?_
    rw [if_neg (Nat.not_le.2 hout), if_neg (Nat.not_le.2 hout)]
    split <;> rfl
  · rw [if_pos hin, if_pos hin]
    exact execLoadb_inside hp hin

theorem length_writtenBytes (c : Config) (a : Addr) (bytes : List Byte) :
    (writtenBytes c a bytes).length =
      if a.toNat + bytes.length ≤ addressSpace ∨ c.loadPartial = true then min bytes.length (addressSpace - a.toNat)
      else 0 := by
  unfold writtenBytes
  by_cases hin : a.toNat + bytes.length ≤ addressSpace
  · rw [if_pos hin, if_pos (.inl hin)]; omega
  · by_cases hpart : c.loadPartial = true
    · rw [if_neg hin, if_pos hpart, if_pos (.inr hpart), List.length_take, Nat.min_comm]
    · rw [if_neg hin, if_neg hpart, if_neg (not_or.2 ⟨hin, hpart⟩), List.length_nil]

/-- The bytes written are inside the store. -/
theorem writtenBytes_inside (c : Config) (a : Addr) (bytes : List Byte) :
    a.toNat + (writtenBytes c a bytes).length ≤ addressSpace := by
  have ha : a.toNat < addressSpace := a.isLt
  rw [length_writtenBytes]
  split <;> omega

/-- The addresses a LOADB writes. -/
theorem written_address_iff (c : Config) (a : Addr) (bytes : List Byte) (b : Nat) :
    a.toNat ≤ b ∧ b < a.toNat + (writtenBytes c a bytes).length ↔
      a.toNat ≤ b ∧ b < a.toNat + bytes.length ∧ b < addressSpace ∧
        (a.toNat + bytes.length ≤ addressSpace ∨ c.loadPartial = true) := by
  rw [length_writtenBytes]
  split
  · next hwrites => simp only [hwrites, and_true]; omega
  · next hnone => simp only [hnone, and_false, iff_false]; omega

/-- LOADB reads no store: into any two stores it writes the same bytes, and leaves the others of each. -/
theorem read_writeAll_writtenBytes {m n : Memory} (hm : m.wf = true) (hn : n.wf = true) (c : Config) (a : Addr)
    (bytes : List Byte) (b : Nat) :
    (m.writeAll a.toNat (writtenBytes c a bytes)).read b =
      if a.toNat ≤ b ∧ b < a.toNat + bytes.length ∧ b < addressSpace ∧
          (a.toNat + bytes.length ≤ addressSpace ∨ c.loadPartial = true) then
        (n.writeAll a.toNat (writtenBytes c a bytes)).read b
      else m.read b := by
  have hin := writtenBytes_inside c a bytes
  rw [Memory.read_writeAll m hm _ _ hin, Memory.read_writeAll n hn _ _ hin]
  simp only [written_address_iff]
  split <;> rfl

/-- LOADB over another store: the same answer, and the same bytes written. -/
theorem exec_loadb_withStore {s t : State} (hs : s.Shaped) {a : Addr} {bytes : List Byte} {m : Memory}
    (hm : m.wf = true) (h : exec (.loadb a bytes) s = .next t) :
    ∃ n, exec (.loadb a bytes) (withStore s m) = .next (withStore t n) ∧
      ∀ b, n.read b =
        if a.toNat ≤ b ∧ b < a.toNat + bytes.length ∧ b < addressSpace ∧
          (a.toNat + bytes.length ≤ addressSpace ∨ s.cfg.loadPartial = true) then t.bs.read b else m.read b := by
  rw [exec_loadb_eq hs.phase] at h
  cases h
  exact ⟨_, exec_loadb_eq (s := withStore s m) hs.phase a bytes,
    read_writeAll_writtenBytes hm hs.store s.cfg a bytes⟩

/-- Settles O39: RESET and LOADB write the store and nothing else does; RESET, LOADB, ISHIT, LOOKUP and a READB that hits
do the same over any store. -/
theorem storeReadersAndWriters : Obligations.StoreReadersAndWriters := by
  refine ⟨fun c a hc => read_start hc a, fun s a hwf hne => Memory.lt_addressSpace_of_read_ne_zero hwf hne,
    fun s t a hs h => ?_, fun i s t h hreset hloadb => exec_bs h hreset hloadb, fun s t i m hs h => ⟨?_, ?_, ?_⟩⟩
  · rw [exec_reset_inv hs.phase hs.legal h]; rfl
  · rintro ⟨a, rfl | rfl | ⟨rfl, hres⟩⟩
    · exact exec_ishit_withStore hs m h
    · exact exec_lookup_withStore hs m h
    · exact exec_readb_withStore hs hres m h
  · rintro rfl
    exact exec_reset_withStore hs m h
  · rintro a bytes rfl hm
    exact exec_loadb_withStore hs hm h

end Sys2Proof.Machine
end

section
/-! The header word (30_encoding.md R65 to R68): its value and its bytes, the masks of the opcode table read field by
field, and the byte strings that spell a request. -/
namespace Sys2Proof

/-! ## The header word as a number (R65) -/

theorem Header.toNat_make (op : BitVec 4) (addr : Addr) (len : BitVec 20) :
    (Header.make op addr len).toNat = op.toNat * 2 ^ 36 + addr.toNat * 2 ^ 20 + len.toNat := by
  rw [Header.make, BitVec.toNat_append, BitVec.toNat_append, ← Nat.shiftLeft_add_eq_or_of_lt addr.isLt,
    ← Nat.shiftLeft_add_eq_or_of_lt len.isLt, Nat.shiftLeft_eq, Nat.shiftLeft_eq]
  ring

theorem Header.toNat_eq_fields (w : Header) :
    w.toNat = w.op.toNat * 2 ^ 36 + w.addr.toNat * 2 ^ 20 + w.len.toNat := by
  rw [← Header.toNat_make, Header.make_fields]

/-- The byte whose highest bit is bit `hi` of the word is what is left when the bits below it are shifted out. -/
theorem Header.bytes_eq_map (w : Header) :
    w.bytes = [39, 31, 23, 15, 7].map fun hi => BitVec.ofNat 8 (w.toNat / 2 ^ (hi - 7)) := by
  simp only [Header.bytes, BitVec.extractLsb', Nat.shiftRight_eq_div_pow, List.map_cons, List.map_nil, Nat.reduceSub]

/-- The header of every well-formed request has its fields in their places. -/
theorem headerFields (i : Instr) : Laws.HeaderFields.Statement i := by
  cases i with
  | reset => exact Laws.HeaderFields.reset
  | loadb a bytes => exact Laws.HeaderFields.loadb a bytes
  | readb a => exact Laws.HeaderFields.readb a
  | ishit a => exact Laws.HeaderFields.ishit a
  | lookup a => exact Laws.HeaderFields.lookup a
  | fill a => exact Laws.HeaderFields.fill a

theorem payload_eq_nil {i : Instr} (h : ∀ a bytes, i ≠ .loadb a bytes) : i.payload = [] := by
  cases i with
  | loadb a bytes => exact absurd rfl (h a bytes)
  | reset | readb | ishit | lookup | fill => rfl

/-- Settles O3: the value and the bytes of any header, at the fields of the request's header. -/
theorem headerWordLayout : Obligations.HeaderWordLayout := by
  intro i hwf
  obtain ⟨hop, haddr, hlen⟩ := headerFields i hwf
  refine ⟨?_, ?_, payload_eq_nil⟩
  · rw [Header.toNat_eq_fields, hop, haddr, hlen]
  · rw [encode, Header.bytes_eq_map]

/-! ## Match and mask, field by field (R66) -/

/-- A word is its three fields. -/
theorem Header.eq_iff_fields (w v : Header) : w = v ↔ w.op = v.op ∧ w.addr = v.addr ∧ w.len = v.len := by
  constructor
  · rintro rfl; exact ⟨rfl, rfl, rfl⟩
  · rintro ⟨hop, haddr, hlen⟩
    rw [← Header.make_fields w, ← Header.make_fields v, hop, haddr, hlen]

/-- To mask a word is to mask its fields. -/
theorem Header.and_eq_iff_fields (w m v : Header) :
    w &&& m = v ↔ w.op &&& m.op = v.op ∧ w.addr &&& m.addr = v.addr ∧ w.len &&& m.len = v.len := by
  rw [Header.eq_iff_fields]
  simp only [Header.op, Header.addr, Header.len, BitVec.extractLsb'_and]

/-- Format N, the whole word fixed. -/
theorem Header.maskN_iff (w : Header) (op : BitVec 4) :
    w &&& 0xFFFFFFFFFF#40 = Header.make op 0 0 ↔ w.op = op ∧ w.addr = 0 ∧ w.len = 0 := by
  rw [show (0xFFFFFFFFFF#40) = Header.make (.allOnes 4) (.allOnes 16) (.allOnes 20) by decide, Header.and_eq_iff_fields]
  simp only [Header.op_make, Header.addr_make, Header.len_make, BitVec.and_allOnes]

/-- LOADB's format, with `ADDR` and `LEN` free. -/
theorem Header.maskL_iff (w : Header) (op : BitVec 4) :
    w &&& 0xF000000000#40 = Header.make op 0 0 ↔ w.op = op := by
  rw [show (0xF000000000#40) = Header.make (.allOnes 4) 0 0 by decide, Header.and_eq_iff_fields]
  simp only [Header.op_make, Header.addr_make, Header.len_make, BitVec.and_allOnes, BitVec.ofNat_eq_ofNat,
    BitVec.and_zero, and_true]

/-- Format A, with `ADDR` free. -/
theorem Header.maskA_iff (w : Header) (op : BitVec 4) :
    w &&& 0xF0000FFFFF#40 = Header.make op 0 0 ↔ w.op = op ∧ w.len = 0 := by
  rw [show (0xF0000FFFFF#40) = Header.make (.allOnes 4) 0 (.allOnes 20) by decide, Header.and_eq_iff_fields]
  simp only [Header.op_make, Header.addr_make, Header.len_make, BitVec.and_allOnes, BitVec.ofNat_eq_ofNat,
    BitVec.and_zero, true_and]

/-! ## The byte strings that spell a request (R66 to R68) -/

/-- LOADB's operand is all that follows the header when a payload of `LEN` bytes leaves nothing over. -/
theorem whole_payload_iff (a : Addr) (n : Nat) (p : List Byte) (i : Instr) :
    (n ≤ p.length ∧ i = .loadb a (p.take n) ∧ [] = p.drop n) ↔ p.length = n ∧ i = .loadb a p := by
  constructor
  · rintro ⟨hle, hi, hdrop⟩
    have hge : p.length ≤ n := List.drop_eq_nil_iff.1 hdrop.symm
    exact ⟨Nat.le_antisymm hge hle, by rw [hi, List.take_of_length_le hge]⟩
  · rintro ⟨rfl, hi⟩
    exact ⟨le_rfl, by rw [List.take_length, hi], List.drop_length.symm⟩

/-- All that a header and the bytes after it decode to. -/
theorem decode_bytes_eq_ok_iff (w : Header) (p : List Byte) (i : Instr) :
    decode (w.bytes ++ p) = .ok i ↔
      (w.op = 1 ∧ w.addr = 0 ∧ w.len = 0 ∧ i = .reset ∧ p = []) ∨
      (w.op = 2 ∧ p.length = w.len.toNat ∧ i = .loadb w.addr p) ∨
      (w.op = 3 ∧ w.len = 0 ∧ i = .readb w.addr ∧ p = []) ∨
      (w.op = 4 ∧ w.len = 0 ∧ i = .ishit w.addr ∧ p = []) ∨
      (w.op = 5 ∧ w.len = 0 ∧ i = .lookup w.addr ∧ p = []) ∨
      (w.op = 6 ∧ w.len = 0 ∧ i = .fill w.addr ∧ p = []) := by
  rw [decode_eq_ok_iff, decodePrefix_bytes, decodeWord_eq_ok_iff, whole_payload_iff]
  simp only [@eq_comm _ [] p]

/-- A header and the bytes after it spell a request in three ways: RESET's one word, a LOADB with `LEN` bytes of payload,
or a request of format A. -/
theorem exists_decode_bytes_eq_ok_iff (w : Header) (p : List Byte) :
    (∃ i, decode (w.bytes ++ p) = .ok i) ↔
      (w.op.toNat = 1 ∧ w.addr.toNat = 0 ∧ w.len.toNat = 0 ∧ p = []) ∨
      (w.op.toNat = 2 ∧ p.length = w.len.toNat) ∨
      (3 ≤ w.op.toNat ∧ w.op.toNat ≤ 6 ∧ w.len.toNat = 0 ∧ p = []) := by
  simp only [decode_bytes_eq_ok_iff, ← BitVec.toNat_inj, BitVec.toNat_ofNat, BitVec.ofNat_eq_ofNat]
  constructor
  · rintro ⟨i, ⟨hop, haddr, hlen, -, hp⟩ | ⟨hop, hlen, -⟩ | ⟨hop, hlen, -, hp⟩ | ⟨hop, hlen, -, hp⟩ |
      ⟨hop, hlen, -, hp⟩ | ⟨hop, hlen, -, hp⟩⟩
    · exact .inl ⟨hop, haddr, hlen, hp⟩
    · exact .inr (.inl ⟨hop, hlen⟩)
    all_goals exact .inr (.inr ⟨by omega, by omega, hlen, hp⟩)
  · rintro (⟨hop, haddr, hlen, hp⟩ | ⟨hop, hlen⟩ | ⟨hge, hle, hlen, hp⟩)
    · exact ⟨.reset, .inl ⟨hop, haddr, hlen, rfl, hp⟩⟩
    · exact ⟨.loadb w.addr p, .inr (.inl ⟨hop, hlen, rfl⟩)⟩
    · obtain hop | hop | hop | hop :
          w.op.toNat = 3 ∨ w.op.toNat = 4 ∨ w.op.toNat = 5 ∨ w.op.toNat = 6 := by omega
      · exact ⟨.readb w.addr, .inr (.inr (.inl ⟨hop, hlen, rfl, hp⟩))⟩
      · exact ⟨.ishit w.addr, .inr (.inr (.inr (.inl ⟨hop, hlen, rfl, hp⟩)))⟩
      · exact ⟨.lookup w.addr, .inr (.inr (.inr (.inr (.inl ⟨hop, hlen, rfl, hp⟩))))⟩
      · exact ⟨.fill w.addr, .inr (.inr (.inr (.inr (.inr ⟨hop, hlen, rfl, hp⟩))))⟩

/-- Bytes that spell no request are refused for a reason. -/
theorem exists_decode_error {f : List Byte} (h : ¬ ∃ i, decode f = .ok i) : ∃ e, decode f = .error e := by
  cases hf : decode f with
  | ok i => exact absurd ⟨i, hf⟩ h
  | error e => exact ⟨e, rfl⟩

/-! ## The rows of the opcode table, for a word with as many bytes after it as its request has (R66) -/

section Rows

variable {w : Header} {p : List Byte} (hp : p.length = if w.op = 2 then w.len.toNat else 0)
include hp

theorem eq_nil_of_op_ne_two (hop : w.op ≠ 2) : p = [] := by
  rw [if_neg hop] at hp
  exact List.eq_nil_of_length_eq_zero hp

theorem decode_reset_iff_mask :
    decode (w.bytes ++ p) = .ok .reset ↔ w &&& 0xFFFFFFFFFF#40 = 0x1000000000#40 := by
  rw [show (0x1000000000#40) = Header.make 1 0 0 by decide, Header.maskN_iff, decode_bytes_eq_ok_iff]
  simp only [reduceCtorEq, false_and, and_false, or_false, true_and]
  constructor
  · rintro ⟨hop, haddr, hlen, -⟩
    exact ⟨hop, haddr, hlen⟩
  · rintro ⟨hop, haddr, hlen⟩
    exact ⟨hop, haddr, hlen, eq_nil_of_op_ne_two hp (by rw [hop]; decide)⟩

theorem decode_loadb_iff_mask (a : Addr) (bytes : List Byte) :
    decode (w.bytes ++ p) = .ok (.loadb a bytes) ↔
      w &&& 0xF000000000#40 = 0x2000000000#40 ∧ a = w.addr ∧ bytes = p := by
  rw [show (0x2000000000#40) = Header.make 2 0 0 by decide, Header.maskL_iff, decode_bytes_eq_ok_iff]
  simp only [reduceCtorEq, false_and, and_false, or_false, false_or, Instr.loadb.injEq]
  constructor
  · rintro ⟨hop, -, hi⟩
    exact ⟨hop, hi⟩
  · rintro ⟨hop, hi⟩
    exact ⟨hop, by rw [hp, if_pos hop], hi⟩

/-- What the four rows of format A have in common. -/
theorem addrRow_iff_mask {n : BitVec 4} (hn : n ≠ 2) (a : Addr) :
    (w.op = n ∧ w.len = 0 ∧ a = w.addr ∧ p = []) ↔ w &&& 0xF0000FFFFF#40 = Header.make n 0 0 ∧ a = w.addr := by
  rw [Header.maskA_iff]
  constructor
  · rintro ⟨hop, hlen, ha, -⟩
    exact ⟨⟨hop, hlen⟩, ha⟩
  · rintro ⟨⟨hop, hlen⟩, ha⟩
    exact ⟨hop, hlen, ha, eq_nil_of_op_ne_two hp (hop ▸ hn)⟩

end Rows

/-- Settles O4: each row is what `decode` answers for the row's request, its mask read field by field; a reserved code is
in none of the three ways to spell a request. -/
theorem opcodeTableRows : Obligations.OpcodeTableRows := by
  intro w p hp
  refine ⟨decode_reset_iff_mask hp, decode_loadb_iff_mask hp, fun a => ?_, fun a => ?_, fun a => ?_, fun a => ?_,
    fun hreserved => exists_decode_error fun hok => ?_⟩
  · exact Iff.trans (by simp [decode_bytes_eq_ok_iff]) (addrRow_iff_mask hp (n := 3) (by decide) a)
  · exact Iff.trans (by simp [decode_bytes_eq_ok_iff]) (addrRow_iff_mask hp (n := 4) (by decide) a)
  · exact Iff.trans (by simp [decode_bytes_eq_ok_iff]) (addrRow_iff_mask hp (n := 5) (by decide) a)
  · exact Iff.trans (by simp [decode_bytes_eq_ok_iff]) (addrRow_iff_mask hp (n := 6) (by decide) a)
  · have hop : w.op.toNat = 0 ∨ 7 ≤ w.op.toNat := hreserved.imp_left fun h => congrArg BitVec.toNat h
    have hspells := (exists_decode_bytes_eq_ok_iff w p).1 hok
    omega

end Sys2Proof
end

section
/-! Illegal words at the step (30_encoding.md R68), reassembly of an address (R62), and the fields of a response (R69). -/
namespace Sys2Proof.Machine

/-- The machine refuses bytes that spell no request, by the decoder's reason. -/
theorem step_of_decode_error {s : State} {f : List Byte} {rest : List (List Byte)} {e : DecodeError}
    (hpending : s.pending = f :: rest) (he : decode f = .error e) : step s = .refused (.illegalRequest e) := by
  simp only [step, takeRequest, hpending, he]

/-- Settles O5: R68's list is the complement of the three ways to spell a request. -/
theorem illegalWordsAreRefused : Obligations.IllegalWordsAreRefused := by
  intro w p op addr len illegal
  have hspells : (∃ i, decode (w.bytes ++ p) = .ok i) ↔ (op = 1 ∧ addr = 0 ∧ len = 0 ∧ p = []) ∨
      (op = 2 ∧ p.length = len) ∨ (3 ≤ op ∧ op ≤ 6 ∧ len = 0 ∧ p = []) := exists_decode_bytes_eq_ok_iff w p
  refine ⟨fun hillegal => ?_, fun hlegal hnil => hspells.2 ?_⟩
  · obtain ⟨e, he⟩ : ∃ e, decode (w.bytes ++ p) = .error e := exists_decode_error fun hok => by
      have hlegal := hspells.1 hok
      omega
    exact ⟨e, he, fun s rest hpending => step_of_decode_error hpending he⟩
  · obtain ⟨hop, haddr, hlen⟩ | ⟨hop, hlen⟩ | ⟨hge, hle, hlen⟩ : (op = 1 ∧ addr = 0 ∧ len = 0) ∨
        (op = 2 ∧ p.length = len) ∨ (3 ≤ op ∧ op ≤ 6 ∧ len = 0) := by omega
    · exact .inl ⟨hop, haddr, hlen, hnil (by omega)⟩
    · exact .inr (.inl ⟨hop, hlen⟩)
    · exact .inr (.inr ⟨hge, hle, hlen, hnil (by omega)⟩)

/-- Settles O14: with its fields in range, the expression is `reassemble`. -/
theorem addressRoundTrip : Obligations.AddressRoundTrip := fun c a _ =>
  ⟨(reassemble_eq_add c (setIndex_lt c a) (offsetOf_lt c a)).trans (toNat_eq_sum c a).symm, reassemble_block c a⟩

/-- In phase ConfigFault every request is answered CONFIG_ERROR (60_exceptions.md R142). -/
theorem exec_configFault {s : State} (h : s.phase = .configFault) (i : Instr) : exec i s = raise s .configError := by
  cases i with
  | reset => exact whenReady_configFault h _
  | loadb a bytes => exact whenReady_configFault h _
  | readb a => exact whenReady_configFault h _
  | ishit a => exact whenReady_configFault h _
  | lookup a => exact whenReady_configFault h _
  | fill a => exact whenReady_configFault h _

/-- Settles O22: the answer of each request is read off what the request does; what it says of a hit is what `Lookup`
finds, and the way filled on a miss is the victim. -/
theorem responseFields : Obligations.ResponseFields := by
  refine ⟨⟨rfl, rfl, rfl⟩, ?_⟩
  rintro i s t (hs | hfault) h
  · cases i with
    | reset =>
      rw [exec_reset_inv hs.phase hs.legal h]
      refine ⟨_, rfl, Nat.two_pow_pos _, ?_⟩
      simp [okResponse, hs.phase]
    | loadb a bytes =>
      rw [exec_loadb_eq hs.phase] at h
      cases h
      split
      · refine ⟨_, rfl, Nat.two_pow_pos _, ?_⟩
        simp [okResponse, hs.phase]
      · refine ⟨_, rfl, Nat.two_pow_pos _, ?_⟩
        simp [errorResponse, hs.phase]
    | readb a =>
      rcases exec_readb_inv hs h with ⟨w, hw, rfl⟩ | ⟨hmiss, rfl⟩
      · refine ⟨_, rfl, way_lt_two_pow hw.1, ?_⟩
        simpa [hs.phase, byteAt] using And.intro (resident_of_firstMatch hw) hw
      · have hvictim := fillWay_miss hs ((hs.lookup_none a).2 hmiss)
        refine ⟨_, rfl, way_lt_two_pow (fillWay_lt hs a), ?_⟩
        simpa [hs.phase, byteAt] using And.intro hmiss hvictim
    | ishit a =>
      rw [exec_ishit_inv hs.phase h]
      refine ⟨_, rfl, Nat.two_pow_pos _, ?_⟩
      simpa [hs.phase] using hs.lookup_isSome a
    | lookup a =>
      rw [exec_lookup_inv hs.phase h]
      cases hl : lookup s a with
      | some w =>
        have hw := (hs.lookup_some a w).1 hl
        refine ⟨_, rfl, way_lt_two_pow hw.1, ?_⟩
        simpa [hs.phase] using And.intro (resident_of_firstMatch hw) hw
      | none =>
        refine ⟨_, rfl, Nat.two_pow_pos _, ?_⟩
        simpa [hs.phase] using (hs.lookup_none a).1 hl
    | fill a =>
      rw [exec_fill_inv hs h]
      refine ⟨_, rfl, way_lt_two_pow (fillWay_lt hs a), ?_⟩
      cases hl : lookup s a with
      | some w =>
        have hw := (hs.lookup_some a w).1 hl
        simpa [hs.phase, fillWay_hit hl] using And.intro (resident_of_firstMatch hw) hw
      | none => simpa [hs.phase] using And.intro ((hs.lookup_none a).1 hl) (fillWay_miss hs hl)
  · rw [exec_configFault hfault] at h
    cases h
    refine ⟨errorResponse .configError, rfl, Nat.two_pow_pos _, ?_⟩
    simp [errorResponse, hfault]

end Sys2Proof.Machine
end

section
/-! The address decoder at its corners: a field of no bits is 0 at every address, and a tag of all 16 bits is the address
(40_address_decoder.md R80 to R82). -/
namespace Sys2Proof.Machine

theorem Config.numSets_eq_one {c : Config} (h : c.indexBits = 0) : c.numSets = 1 := by
  rw [Config.numSets, h, Nat.pow_zero]

theorem Config.blockSize_eq_one {c : Config} (h : c.offsetBits = 0) : c.blockSize = 1 := by
  rw [Config.blockSize, h, Nat.pow_zero]

theorem tagOf_eq_zero {c : Config} (hc : c.Legal) (h : c.tagBits = 0) (a : Addr) : tagOf c a = 0 := by
  have hlt := tagOf_lt c a hc
  rw [h, Nat.pow_zero] at hlt
  exact Nat.lt_one_iff.1 hlt

theorem tagOf_eq_toNat {c : Config} (hc : c.Legal) (h : c.tagBits = 16) (a : Addr) : tagOf c a = a.toNat := by
  obtain ⟨hwidth : c.offsetBits + c.indexBits + c.tagBits = 16, -, -⟩ := hc
  have hshift : c.indexBits + c.offsetBits = 0 := by omega
  rw [tagOf_eq_div, hshift, Nat.pow_zero, Nat.div_one]

theorem setIndex_eq_zero {c : Config} (h : c.indexBits = 0) (a : Addr) : setIndex c a = 0 := by
  rw [setIndex_eq_mod, Config.numSets_eq_one h, Nat.mod_one]

theorem offsetOf_eq_zero {c : Config} (h : c.offsetBits = 0) (a : Addr) : offsetOf c a = 0 := by
  rw [offsetOf_eq_mod, Config.blockSize_eq_one h, Nat.mod_one]

/-- Settles O12: for each field its range, its division or remainder form and its corner cases; the three fields of the
example address are computed. -/
theorem addressFields : Obligations.AddressFields := by
  refine ⟨fun c a hc => ⟨?tag, ?index, ?offset⟩, by decide⟩
  case tag => exact ⟨tagOf_lt c a hc, tagOf_eq_div c a, (tagOf_eq_zero hc · a), (tagOf_eq_toNat hc · a)⟩
  case index => exact ⟨setIndex_lt c a, setIndex_eq_mod c a, fun h => ⟨Config.numSets_eq_one h, setIndex_eq_zero h a⟩⟩
  case offset => exact ⟨offsetOf_lt c a, offsetOf_eq_mod c a, fun h => ⟨Config.blockSize_eq_one h, offsetOf_eq_zero h a⟩⟩

end Sys2Proof.Machine
end

section
/-! The two requests that only look (41_lookup.md): what LOOKUP and ISHIT answer in a block of the right shape, right after
RESET, and in phase ConfigFault, and that the answer depends on the valid bits and tags of one set. -/
namespace Sys2Proof.Machine

/-! ## What the two requests do in phase Ready -/

theorem exec_ishit_eq {s : State} (hs : s.Shaped) (a : Addr) :
    exec (.ishit a) s = .next (withResponse s
      { status := .ok, hit := decide (Resident s a), filled := false, way := 0, data := 0 }) := by
  have hhit : (lookup s a).isSome = decide (Resident s a) := by
    rw [Bool.eq_iff_iff, decide_eq_true_iff]
    exact hs.lookup_isSome a
  rw [← hhit]
  exact execIshit_eq hs.phase a

theorem exec_lookup_hit {s : State} (hs : s.Shaped) {a : Addr} {w : Nat} (hw : FirstMatch s a w) :
    exec (.lookup a) s = .next (withResponse s { status := .ok, hit := true, filled := false, way := w, data := 0 }) := by
  refine (execLookup_eq hs.phase a).trans ?_
  rw [(hs.lookup_some a w).2 hw]
  rfl

theorem exec_lookup_miss {s : State} (hs : s.Shaped) {a : Addr} (hmiss : ¬ Resident s a) :
    exec (.lookup a) s = .next (withResponse s okResponse) := by
  refine (execLookup_eq hs.phase a).trans ?_
  rw [(hs.lookup_none a).2 hmiss]
  rfl

/-- A resident block has a lowest matching way (41_lookup.md R91). -/
theorem exists_firstMatch {s : State} (hs : s.Shaped) {a : Addr} (hres : Resident s a) : ∃ w, FirstMatch s a w := by
  obtain ⟨w, hw⟩ := Option.isSome_iff_exists.1 ((hs.lookup_isSome a).2 hres)
  exact ⟨w, (hs.lookup_some a w).1 hw⟩

/-- Settles O26: `Lookup` finds the lowest matching way, or none when the block is not resident. -/
theorem lookupEffect : Obligations.LookupEffect := fun _ a =>
  ⟨rfl, fun hs => ⟨fun _ hw => exec_lookup_hit hs hw, exec_lookup_miss hs, exists_firstMatch hs⟩,
    fun hfault => exec_configFault hfault (.lookup a)⟩

/-- Settles O27: `Lookup` finds a way exactly when the block is resident. -/
theorem ishitEffect : Obligations.IshitEffect := fun _ a =>
  ⟨rfl, fun hs => exec_ishit_eq hs a, fun hfault => exec_configFault hfault (.ishit a)⟩

/-! ## Right after RESET -/

/-- RESET leaves no line valid, so nothing is resident. -/
theorem not_resident_resetAll (s : State) (a : Addr) : ¬ Resident (withResponse (resetAll s) okResponse) a := by
  rintro ⟨w, hw, hvalid, -⟩
  have hline := lineAt_resetAll (s := s) (setIndex_lt s.cfg a) hw
  exact Bool.false_ne_true ((congrArg Line.valid hline).symm.trans hvalid)

/-- Settles O24: RESET leaves a block of the right shape with nothing resident, so ISHIT answers a miss. -/
theorem coldCacheMiss : Obligations.ColdCacheMiss := by
  intro s t a hp hl h
  rw [exec_reset_inv hp hl h, exec_ishit_eq ((State.Shaped.resetAll hp hl).withResponse okResponse),
    decide_eq_false (not_resident_resetAll s a)]
  rfl

/-! ## What `Lookup` reads (41_lookup.md R92) -/

/-- Two states have one valid bit and one tag in every way of set `x`. -/
abbrev SameValidTags (s u : State) (x : Nat) : Prop :=
  ∀ w < s.cfg.associativity, (lineAt u x w).valid = (lineAt s x w).valid ∧ (lineAt u x w).tag = (lineAt s x w).tag

/-- The lowest matching way is read off the valid bits and tags of the set of the address. -/
theorem firstMatch_congr {s u : State} {a : Addr} (hc : u.cfg = s.cfg) (hsame : SameValidTags s u (setIndex s.cfg a))
    (w : Nat) : FirstMatch u a w ↔ FirstMatch s a w := by
  rw [FirstMatch, FirstMatch, hc]
  refine and_congr_right fun hw => and_congr ?_ (forall₂_congr fun v hv => ?_)
  · rw [(hsame w hw).1, (hsame w hw).2]
  · rw [(hsame v (hv.trans hw)).1, (hsame v (hv.trans hw)).2]

/-- `Lookup` reads the valid bits and tags of one set and nothing else. -/
theorem lookup_eq_of_sameValidTags {s u : State} {a : Addr} (hs : s.Shaped) (hu : u.Shaped) (hc : u.cfg = s.cfg)
    (hsame : SameValidTags s u (setIndex s.cfg a)) : lookup u a = lookup s a := by
  ext w
  rw [hu.lookup_some, hs.lookup_some]
  exact firstMatch_congr hc hsame w

/-- Settles O28: of the state, the answers of LOOKUP and ISHIT read what `Lookup` finds, and that is the same in both. -/
theorem lookupReadsOneSet : Obligations.LookupReadsOneSet := by
  intro s u a hs hu hc hsame i hi
  have hlookup : lookup u a = lookup s a := lookup_eq_of_sameValidTags hs hu hc hsame
  obtain rfl | rfl : i = .lookup a ∨ i = .ishit a := by simpa using hi
  · refine ⟨_, execLookup_eq hs.phase a, ?_⟩
    rw [← hlookup]
    exact execLookup_eq hu.phase a
  · refine ⟨_, execIshit_eq hs.phase a, ?_⟩
    rw [← hlookup]
    exact execIshit_eq hu.phase a

end Sys2Proof.Machine
end

section
/-! FILL and the fill of a READB that misses (42_fill.md): what FILL does on a hit and on a miss, how long the block then
hits, and which bytes of the store a fill reads. -/
namespace Sys2Proof.Machine

/-! ## What FILL does in phase Ready (R100 to R102) -/

theorem exec_fill_hit {s : State} (hs : s.Shaped) {a : Addr} {w : Nat} (hw : FirstMatch s a w) :
    exec (.fill a) s = .next (withResponse (filled s a)
      { status := .ok, hit := true, filled := true, way := w, data := 0 }) := by
  have hl := (hs.lookup_some a w).2 hw
  refine (execFill_eq hs a).trans ?_
  rw [hl, fillWay_hit hl]
  rfl

theorem exec_fill_miss {s : State} (hs : s.Shaped) {a : Addr} (hmiss : ¬ Resident s a) :
    exec (.fill a) s = .next (withResponse (filled s a)
      { status := .ok, hit := false, filled := true, way := fillWay s a, data := 0 }) := by
  refine (execFill_eq hs a).trans ?_
  rw [(hs.lookup_none a).2 hmiss]
  rfl

/-- Settles O31: on a miss the way filled is the victim; on a hit it is the way found, and no pointer moves. -/
theorem fillEffect : Obligations.FillEffect := by
  refine fun s a => ⟨rfl, fun hs => ⟨fun hmiss => ?_, fun w hw => ?_⟩, fun hfault => exec_configFault hfault (.fill a)⟩
  · have hl := (hs.lookup_none a).2 hmiss
    exact ⟨_, fillWay s a, fillWay_miss hs hl, exec_fill_miss hs hmiss, rfl, filled_loadedInto hs a _,
      rr_filled_miss hs hl _⟩
  · have hl := (hs.lookup_some a w).2 hw
    exact ⟨_, exec_fill_hit hs hw, rfl, fillWay_hit hl ▸ filled_loadedInto hs a _, rr_filled_hit hl⟩

/-! ## How long a hit lasts (R103) -/

theorem exec_cfg {s t : State} (hs : s.Shaped) {i : Instr} (h : exec i s = .next t) : t.cfg = s.cfg := by
  rcases exec_lines_inv hs h with rfl | ⟨-, hcfg, -⟩ | ⟨a, r, -, rfl, -⟩
  · rw [exec_reset_inv hs.phase hs.legal h]; rfl
  · exact hcfg
  · exact filled_cfg s a

/-- A FILL or a READB leaves the block resident: it has been filled, or it was resident and no line has changed. -/
theorem resident_after_fill_or_readb {s t : State} {a : Addr} (hs : s.Shaped)
    (h : exec (.fill a) s = .next t ∨ exec (.readb a) s = .next t) : Resident t a := by
  rcases h with h | h
  · rw [exec_fill_inv hs h]
    exact (resident_congr rfl rfl a).2 (resident_filled hs a)
  · rcases exec_readb_inv hs h with ⟨w, hw, rfl⟩ | ⟨-, rfl⟩
    · exact (resident_congr (by simp) (by simp) a).2 (resident_of_firstMatch hw)
    · exact (resident_congr rfl rfl a).2 (resident_filled hs a)

/-- A fill of `b` takes the line of `a` only as the victim of a miss in its set: a fill of another line leaves it, and a
reload of the same line is of the same block. -/
theorem resident_filled_or_isVictim {s : State} (hs : s.Shaped) {a : Addr} {w : Nat} (hw : FirstMatch s a w) (b : Addr) :
    Resident (filled s b) a ∨
      (setIndex s.cfg b = setIndex s.cfg a ∧ ¬ Resident s b ∧ IsVictim s (setIndex s.cfg a) w) := by
  obtain ⟨hlt, ⟨hvalid, htag⟩, -⟩ := hw
  by_cases hline : (setIndex s.cfg a, w) = (setIndex s.cfg b, fillWay s b)
  · obtain ⟨hset, rfl⟩ := Prod.mk.inj hline
    cases hl : lookup s b with
    | some v =>
      obtain ⟨-, ⟨-, htag'⟩, -⟩ := (hs.lookup_some b v).1 hl
      rw [hset, fillWay_hit hl, htag'] at htag
      left
      simpa only [Resident, filled_cfg, hset, ← htag] using resident_filled hs b
    | none => exact .inr ⟨hset.symm, (hs.lookup_none b).1 hl, hset ▸ fillWay_miss hs hl⟩
  · refine .inl ⟨w, by rwa [filled_cfg], ?_⟩
    rw [filled_cfg, lineAt_filled_other s b _ w hline]
    exact ⟨hvalid, htag⟩

/-- Settles O32: residence is of the whole block, and a request that changes lines is RESET or a fill. -/
theorem fillThenHit : Obligations.FillThenHit := by
  refine ⟨fun s t a b hs h hstart hend => ?_, fun s t i a w hs hw h => ?_⟩
  · have hcfg : t.cfg = s.cfg := h.elim (exec_cfg hs) (exec_cfg hs)
    have ht : t.Shaped := h.elim hs.exec hs.exec
    have hres : Resident t b := (resident_in_block (hcfg ▸ hstart) (hcfg ▸ hend)).2 (resident_after_fill_or_readb hs h)
    rw [exec_ishit_eq ht, decide_eq_true hres]
    rfl
  · rcases exec_lines_inv hs h with hreset | ⟨hlines, hcfg, -⟩ | ⟨b, r, hreq, rfl, -⟩
    · exact .inr (.inl hreset)
    · exact .inl ((resident_congr hcfg hlines a).2 (resident_of_firstMatch hw))
    · rcases resident_filled_or_isVictim hs hw b with hres | hvictim
      · exact .inl ((resident_congr rfl rfl a).2 hres)
      · exact .inr (.inr ⟨b, hreq.symm, hvictim⟩)

/-! ## What a fill reads of the store (R107) -/

/-- Two stores with one content at the block of `a`. -/
abbrev SameBlockBytes (s : State) (m : Memory) (a : Addr) : Prop :=
  ∀ k < s.cfg.blockSize, m.read (blockStart s.cfg a + k) = s.bs.read (blockStart s.cfg a + k)

/-- FILL over a store with the same block does the same, whatever its other bytes. -/
theorem exec_fill_withStore {s t : State} (hs : s.Shaped) {a : Addr} {m : Memory} (hm : SameBlockBytes s m a)
    (h : exec (.fill a) s = .next t) : exec (.fill a) (withStore s m) = .next (withStore t m) := by
  rw [exec_fill_inv hs h, exec, execFill, whenReady_ready (s := withStore s m) hs.phase, fillBlock_withStore hs a m hm]
  rfl

/-- A READB that misses over a store with the same block does the same: the byte it answers is the filled line's. -/
theorem exec_readb_miss_withStore {s t : State} (hs : s.Shaped) {a : Addr} {m : Memory} (hm : SameBlockBytes s m a)
    (hmiss : ¬ Resident s a) (h : exec (.readb a) s = .next t) :
    exec (.readb a) (withStore s m) = .next (withStore t m) := by
  have hl := (hs.lookup_none a).2 hmiss
  cases (execReadb_miss hs hl).symm.trans h
  rw [exec, execReadb, whenReady_ready (s := withStore s m) hs.phase, lookup_withStore, hl, fillBlock_withStore hs a m hm]
  rfl

/-- A line filled by a READB or FILL of `a` holds the block the store had. -/
theorem holdsBlock_of_filled {s t : State} (hs : s.Shaped) {i : Instr} {a : Addr} (hi : i = .readb a ∨ i = .fill a)
    (h : exec i s = .next t) {r : Response} (hr : t.response = some r) (hfilled : r.filled = true) :
    HoldsBlock s t a r.way := by
  rcases exec_lines_inv hs h with rfl | ⟨-, -, r', hr', hunfilled⟩ | ⟨b, r', hreq, rfl, -, hway, -⟩
  · rcases hi with hi | hi <;> cases hi
  · obtain rfl : r' = r := Option.some.inj (hr'.symm.trans hr)
    rw [hunfilled] at hfilled
    cases hfilled
  · obtain rfl : r' = r := Option.some.inj hr
    obtain rfl := readb_or_fill_addr_inj hi hreq
    exact hway ▸ (filled_loadedInto hs a r').holds

/-- A LOADB leaves every line as it is. -/
theorem exec_loadb_lines {s t : State} (hs : s.Shaped) {a : Addr} {bytes : List Byte}
    (h : exec (.loadb a bytes) s = .next t) : t.lines = s.lines := by
  rw [exec_loadb_eq hs.phase] at h
  cases h
  rfl

/-- Settles O34: the line loaded is the block of the present store, and of the store a fill reads no other byte. -/
theorem fillReadsOnlyTheBlock : Obligations.FillReadsOnlyTheBlock := by
  intro s t a hs i hi h
  have hi : i = .readb a ∨ i = .fill a := by simpa [or_comm] using hi
  refine ⟨fun r hr hfilled => holdsBlock_of_filled hs hi h hr hfilled, fun m hm => ?_,
    fun b bytes u hu => exec_loadb_lines (hs.exec h) hu⟩
  rcases hi with rfl | rfl
  · by_cases hres : Resident s a
    · exact exec_readb_withStore hs hres m h
    · exact exec_readb_miss_withStore hs hm hres h
  · exact exec_fill_withStore hs hm h

end Sys2Proof.Machine
end

section
/-! What counts as a use (43_replacement.md R117): what each kind of request does to the recency lists. -/
namespace Sys2Proof.Machine

/-- The uses: READB, hit or miss, and FILL touch the way they answer, and no other. -/
theorem touchedOnly_of_readb_or_fill {s t : State} {i : Instr} {a : Addr} {r : Response} (hs : s.Shaped)
    (hi : i = .readb a ∨ i = .fill a) (h : exec i s = .next t) (hr : t.response = some r) :
    TouchedOnly s t (setIndex s.cfg a) r.way := by
  rcases hi with rfl | rfl
  · rcases exec_readb_inv hs h with ⟨w, -, rfl⟩ | ⟨-, rfl⟩
    · cases hr; exact touch_touchedOnly s (setIndex s.cfg a) w
    · cases hr; exact filled_touchedOnly s a
  · cases exec_fill_inv hs h
    cases hr; exact filled_touchedOnly s a

/-- ISHIT and LOOKUP are no uses. -/
theorem exec_ishit_or_lookup_lru {s t : State} {i : Instr} {a : Addr} (hp : s.phase = .ready)
    (hi : i = .ishit a ∨ i = .lookup a) (h : exec i s = .next t) : t.lru = s.lru := by
  rcases hi with rfl | rfl
  · rw [exec_ishit_inv hp h]; rfl
  · rw [exec_lookup_inv hp h]; rfl

/-- LOADB is no use, whether its bytes fit or not. -/
theorem exec_loadb_lru {s t : State} {a : Addr} {bytes : List Byte} (hp : s.phase = .ready)
    (h : exec (.loadb a bytes) s = .next t) : t.lru = s.lru := by
  cases (exec_loadb_eq hp a bytes).symm.trans h
  rfl

/-- Under LRU a RESET restores the list of every set to the order of the ways. -/
theorem exec_reset_lru {s t : State} (hs : s.Shaped) (hlru : s.cfg.policy = .lru) (h : exec .reset s = .next t) :
    t.lru = List.replicate s.cfg.numSets (List.range s.cfg.associativity) := by
  rw [exec_reset_inv hs.phase hs.legal h, withResponse_lru, resetAll_lru, resetLru, hlru]

/-- Settles O43: request by request under LRU; under FIFO the lists are empty before and after. -/
theorem usesRecorded : Obligations.UsesRecorded := by
  intro s t i r hs h hr
  have ht := hs.exec h
  have hcfg := exec_cfg hs h
  refine ⟨fun hlru => ⟨?_, ?_, fun a hi => exec_ishit_or_lookup_lru hs.phase hi h, fun a hi => ⟨?_, ?_⟩⟩, fun hfifo => ?_⟩
  · rintro rfl
    exact exec_reset_lru hs hlru h
  · rintro a bytes rfl
    exact exec_loadb_lru hs.phase h
  · have htouched := touchedOnly_of_readb_or_fill hs hi h hr
    rwa [TouchedOnly, hlru] at htouched
  · simpa only [hcfg] using ht.lruAt_perm (hcfg ▸ hlru) (setIndex_lt t.cfg a)
  · rw [ht.lruFifo (hcfg ▸ hfifo), hs.lruFifo hfifo]

end Sys2Proof.Machine
end

section
/-! RESET (44_reset_op.md R125): the lines, the store and the replacement state it leaves, and its error. -/
namespace Sys2Proof.Machine

theorem setAt_resetAll {s : State} {x : Nat} (hx : x < s.cfg.numSets) :
    setAt (withResponse (resetAll s) okResponse) x = List.replicate s.cfg.associativity (resetLine s.cfg) :=
  setAt_of_resetLines (s := withResponse (resetAll s) okResponse) rfl hx

theorem resetRr_lru {c : Config} (h : c.policy = .lru) : resetRr c = [] := by rw [resetRr, h]

theorem resetRr_fifo {c : Config} (h : c.policy = .fifo) : resetRr c = List.replicate c.numSets 0 := by rw [resetRr, h]

theorem resetLru_fifo {c : Config} (h : c.policy = .fifo) : resetLru c = [] := by rw [resetLru, h]

theorem resetLru_lru {c : Config} (h : c.policy = .lru) :
    resetLru c = List.replicate c.numSets (List.range c.associativity) := by rw [resetLru, h]

/-- With an illegal configuration RESET raises ConfigurationError, in either phase. -/
theorem exec_reset_illegal {s : State} (hc : ¬ s.cfg.Legal) : exec .reset s = raise s .configError := by
  cases hp : s.phase with
  | ready => exact (whenReady_ready hp _).trans (if_neg hc)
  | configFault => exact exec_configFault hp .reset

/-- Settles O23: with a legal configuration RESET leaves `resetAll`, each part of which has its reset value; with an
illegal one it raises the error. -/
theorem resetEffect : Obligations.ResetEffect := by
  refine ⟨by decide, fun s => ⟨fun hp hc => ?_, exec_reset_illegal⟩⟩
  refine ⟨_, execReset_eq hp hc, rfl, rfl, hp, rfl, List.length_replicate, fun x hx => ⟨?ways, fun w hw => ?line⟩,
    fun a _ => ?store, fun hfifo => ?fifo, fun hlru => ?lru⟩
  case ways => rw [setAt_resetAll hx, List.length_replicate]
  case line => exact lineAt_resetAll hx hw
  case store => rfl
  case fifo => exact ⟨resetRr_fifo hfifo, resetLru_fifo hfifo⟩
  case lru => exact ⟨resetLru_lru hlru, resetRr_lru hlru⟩

end Sys2Proof.Machine
end

section
/-! The two requests of the host interface that move bytes (45_host_api.md): READB on a hit and on a miss, and LOADB with
its bytes inside the store and out of range. -/
namespace Sys2Proof.Machine

/-! ## READB (R133) -/

/-- A READB that hits answers the byte of the cached block and records the use; the state is otherwise as it was. -/
theorem exec_readb_hit {s : State} (hs : s.Shaped) {a : Addr} {w : Nat} (hw : FirstMatch s a w) :
    exec (.readb a) s = .next (withResponse (touch s (setIndex s.cfg a) w)
      { status := .ok, hit := true, filled := false, way := w, data := byteAt s a w }) :=
  execReadb_hit hs.phase ((hs.lookup_some a w).2 hw)

/-- A READB that misses answers the byte of the store, from the line the fill has just loaded. -/
theorem exec_readb_miss {s : State} (hs : s.Shaped) {a : Addr} (hmiss : ¬ Resident s a) :
    exec (.readb a) s = .next (withResponse (filled s a)
      { status := .ok, hit := false, filled := true, way := fillWay s a, data := s.bs.read a.toNat }) := by
  rw [← byteAt_filled hs a]
  exact execReadb_miss hs ((hs.lookup_none a).2 hmiss)

/-- Settles O30: a hit touches the way found and writes nothing else; on a miss the way filled is the victim. -/
theorem readbEffect : Obligations.ReadbEffect := by
  refine fun s a => ⟨rfl, fun hs => ⟨fun w hw => ?hit, fun hmiss => ?miss⟩, fun hfault => exec_configFault hfault (.readb a)⟩
  case hit =>
    have hsame : SameSurroundings s (touch s (setIndex s.cfg a) w) :=
      ⟨touch_cfg s _ w, touch_phase s _ w, touch_bs s _ w, touch_pending s _ w⟩
    exact ⟨_, exec_readb_hit hs hw, rfl, hsame, touch_lines s _ w, touch_rr s _ w, touch_touchedOnly s _ w⟩
  case miss =>
    have hl := (hs.lookup_none a).2 hmiss
    exact ⟨_, fillWay s a, fillWay_miss hs hl, exec_readb_miss hs hmiss, rfl, filled_loadedInto hs a _,
      rr_filled_miss hs hl _⟩

/-! ## The store after a run of writes -/

section Writes
variable {m : Memory} (hm : m.wf = true) {a : Nat} {v : List Byte} (hv : a + v.length ≤ addressSpace)
include hm hv

theorem Memory.read_writeAll_written {i : Nat} (hi : i < v.length) : (m.writeAll a v).read (a + i) = v.getD i 0 := by
  rw [Memory.read_writeAll m hm a v hv, if_pos (by omega), Nat.add_sub_cancel_left]

theorem Memory.read_writeAll_elsewhere {b : Nat} (hb : b < a ∨ a + v.length ≤ b) : (m.writeAll a v).read b = m.read b := by
  rw [Memory.read_writeAll m hm a v hv, if_neg (by omega)]

end Writes

/-! ## LOADB (R130, R131) -/

/-- A LOADB whose bytes do not all fit answers the error over the store with the bytes it does write. -/
theorem exec_loadb_outOfRange {s : State} (hp : s.phase = .ready) {a : Addr} {bytes : List Byte}
    (hout : addressSpace < a.toNat + bytes.length) :
    exec (.loadb a bytes) s = .next (withResponse (withStore s (s.bs.writeAll a.toNat (writtenBytes s.cfg a bytes)))
      (errorResponse .outOfRange)) := by
  rw [exec_loadb_eq hp, if_neg (Nat.not_le.2 hout)]

/-- Settles O37: inside the store all bytes are written, and a read after the writes sees them and nothing else new. -/
theorem loadbEffect : Obligations.LoadbEffect := by
  refine fun s a bytes => ⟨rfl, fun hp hm => ⟨fun hin => ?inside, fun hout => ?outside⟩,
    fun hfault => exec_configFault hfault (.loadb a bytes)⟩
  case inside =>
    exact ⟨_, execLoadb_inside hp hin, rfl, rfl, fun i hi => Memory.read_writeAll_written hm hin hi,
      fun b hb => Memory.read_writeAll_elsewhere hm hin hb, Memory.writeAll_wf s.bs hm a.toNat bytes hin⟩
  case outside => exact ⟨_, exec_loadb_outOfRange hp hout, rfl⟩

section OutOfRange
variable {c : Config} {a : Addr} {bytes : List Byte} (hout : addressSpace < a.toNat + bytes.length)
include hout

/-- Without `LoadPartial` a LOADB out of range writes no byte. -/
theorem writtenBytes_eq_nil (hpart : c.loadPartial = false) : writtenBytes c a bytes = [] := by
  rw [writtenBytes, if_neg (Nat.not_le.2 hout), hpart]
  rfl

/-- Under `LoadPartial` it writes the bytes whose address exists. -/
theorem writtenBytes_eq_take (hpart : c.loadPartial = true) :
    writtenBytes c a bytes = bytes.take (addressSpace - a.toNat) := by
  rw [writtenBytes, if_neg (Nat.not_le.2 hout), if_pos hpart]

/-- Those go up to the last address of the store. -/
theorem toNat_add_length_writtenBytes (hpart : c.loadPartial = true) :
    a.toNat + (writtenBytes c a bytes).length = addressSpace := by
  have ha : a.toNat < addressSpace := a.isLt
  rw [length_writtenBytes, if_pos (.inr hpart)]
  omega

/-- Each of those is the byte of the request at its place. -/
theorem writtenBytes_getD (hpart : c.loadPartial = true) {i : Nat} (hi : a.toNat + i < addressSpace) :
    (writtenBytes c a bytes).getD i 0 = bytes.getD i 0 := by
  rw [writtenBytes_eq_take hout hpart, List.getD_eq_getElem?_getD, List.getElem?_take_of_lt (by omega),
    List.getD_eq_getElem?_getD]

end OutOfRange

/-- Settles O38: the bytes written are none, or under `LoadPartial` those up to the last address, so none is at a low
address. -/
theorem loadbOutOfRange : Obligations.LoadbOutOfRange := by
  intro s a bytes hp hm hout
  have hinside := writtenBytes_inside s.cfg a bytes
  refine ⟨_, exec_loadb_outOfRange hp hout, rfl, rfl, fun hpart => ?nothing,
    fun hpart => ⟨fun i hi => ?written, fun b hb => ?elsewhere, Memory.writeAll_wf s.bs hm _ _ hinside⟩⟩
  case nothing => exact congrArg (s.bs.writeAll a.toNat) (writtenBytes_eq_nil hout hpart)
  all_goals
    have hlength : a.toNat + (writtenBytes s.cfg a bytes).length = 65536 := toNat_add_length_writtenBytes hout hpart
  case written =>
    exact (Memory.read_writeAll_written hm hinside (by omega)).trans (writtenBytes_getD hout hpart (Nat.lt_succ_of_le hi))
  case elsewhere => exact Memory.read_writeAll_elsewhere hm hinside (by omega)

end Sys2Proof.Machine
end

section
/-! The two errors (60_exceptions.md): a block in ConfigFault answers CONFIG_ERROR to every request, and of a Ready block
only LOADB can answer an error. -/
namespace Sys2Proof.Machine

/-- A block of an illegal configuration starts with nothing (10_state.md R23). -/
theorem absent_start {c : Config} (hc : ¬ c.Legal) : (State.start c).Absent := by
  have hstart : State.start c = State.faulted c := if_neg hc
  rw [hstart]
  exact ⟨hc, rfl, rfl, rfl, rfl, rfl⟩

/-- Settles O19: what a raised error leaves is the state with the error as its response. -/
theorem configFaultAnswersEveryRequest : Obligations.ConfigFaultAnswersEveryRequest :=
  ⟨fun _ hc => absent_start hc, fun i _ hfault => exec_configFault hfault i⟩

/-- Settles O20: every request completes, and of the three status codes the answer's is OK, or OUT_OF_RANGE for LOADB
alone, or CONFIG_ERROR, which belongs to the other phase (R69). -/
theorem readyRequestsRespond : Obligations.ReadyRequestsRespond := by
  intro i s hs
  obtain ⟨t, hexec⟩ := exec_completes hs i
  obtain ⟨r, hresponse, -, hloadb, hfault, -⟩ := responseFields.2 i s t (.inl hs) hexec
  refine ⟨t, r, hexec, hresponse, ?_⟩
  cases hstatus : r.status with
  | ok => exact .inl rfl
  | outOfRange => exact .inr ⟨rfl, hloadb hstatus⟩
  | configError =>
    have hphase : s.phase = .configFault := hfault.1 hstatus
    rw [hs.phase] at hphase
    cases hphase

end Sys2Proof.Machine
end

section
/-! System start (70_reset_and_hazards.md R160): the block of a legal configuration starts as the block RESET leaves. -/
namespace Sys2Proof.Machine

/-- A block of a legal configuration starts Ready (10_state.md R23). -/
theorem start_of_legal {c : Config} (hc : c.Legal) : State.start c = State.ready c := if_pos hc

/-- RESET of a Ready block keeps of it the configuration and the interface alone. -/
theorem resetAll_eq_ready {s : State} (hp : s.phase = .ready) :
    resetAll s = { State.ready s.cfg with pending := s.pending, response := s.response } := by
  rw [resetAll, hp]; rfl

/-- Settles O18: what RESET leaves of any Ready block, but for the interface, is the Ready block of its configuration,
and that is the block at system start. -/
theorem systemStartIsReset : Obligations.SystemStartIsReset := by
  refine fun c => ⟨fun hc => ⟨fun s t hcfg hp hexec => ?left_by_reset, ?initial_reset⟩, absent_start⟩
  case left_by_reset =>
    subst hcfg
    rw [exec_reset_inv hp hc hexec, start_of_legal hc, resetAll_eq_ready hp]; rfl
  case initial_reset =>
    rw [start_of_legal hc]
    have hreset : resetAll (State.ready c) = State.ready c := resetAll_eq_ready rfl
    have hexec : exec .reset (State.ready c) = .next (withResponse (resetAll (State.ready c)) okResponse) :=
      execReset_eq rfl hc
    rw [hexec, hreset]; rfl

end Sys2Proof.Machine
end

section
/-! Decoding and encoding are inverse to each other (30_encoding.md R67), and the worked encodings (R74). -/
namespace Sys2Proof

/-- The header of a well-formed request decodes to the request, and what follows the payload is left over. -/
theorem decodeWord_header {i : Instr} (hwf : i.wf = true) (rest : List Byte) :
    decodeWord i.header (i.payload ++ rest) = .ok (i, rest) := by
  obtain ⟨hop, haddr, hlen⟩ := headerFields i hwf
  have hlenField : i.header.len = BitVec.ofNat 20 i.payload.length := Header.len_make _ _ _
  rw [decodeWord_eq_ok_iff, hop, haddr, hlen]
  cases i with
  | reset => exact .inl ⟨rfl, rfl, hlenField, rfl, rfl⟩
  | loadb a bytes =>
    refine .inr (.inl ⟨rfl, ?_, ?_, ?_⟩)
    · rw [List.length_append]; exact Nat.le_add_right _ _
    · rw [List.take_left]; rfl
    · rw [List.drop_left]
  | readb a => exact .inr (.inr (.inl ⟨rfl, hlenField, rfl, rfl⟩))
  | ishit a => exact .inr (.inr (.inr (.inl ⟨rfl, hlenField, rfl, rfl⟩)))
  | lookup a => exact .inr (.inr (.inr (.inr (.inl ⟨rfl, hlenField, rfl, rfl⟩))))
  | fill a => exact .inr (.inr (.inr (.inr (.inr ⟨rfl, hlenField, rfl, rfl⟩))))

theorem decodePrefix_encode_append {i : Instr} (hwf : i.wf = true) (rest : List Byte) :
    decodePrefix (encode i ++ rest) = .ok (i, rest) := by
  rw [encode, List.append_assoc, decodePrefix_bytes]
  exact decodeWord_header hwf rest

theorem decode_encode {i : Instr} (hwf : i.wf = true) : decode (encode i) = .ok i := by
  have hstream := decodePrefix_encode_append hwf []
  rw [List.append_nil] at hstream
  exact (decode_eq_ok_iff _ _).2 hstream

/-- Settles O1: the header's fields are the request's, and they say where its payload ends. -/
theorem decodeOfEncode : Obligations.DecodeOfEncode :=
  fun _ hwf => ⟨decode_encode hwf, decodePrefix_encode_append hwf⟩

/-- A byte string that spells a request is a header and what follows it. -/
theorem exists_header_of_decode {f : List Byte} {i : Instr} (h : decode f = .ok i) :
    ∃ (w : Header) (p : List Byte), f = w.bytes ++ p := by
  refine exists_header f (Nat.le_of_not_lt fun hshort => ?_)
  have hstream := (decode_eq_ok_iff f i).1 h
  rw [decodePrefix_short f hshort] at hstream
  cases hstream

/-- A request whose fields and payload are those of a byte string is spelled by it. -/
theorem encode_eq_of_fields {w : Header} {p : List Byte} {i : Instr} (hop : w.op = i.op) (haddr : w.addr = i.addrField)
    (hlen : w.len = BitVec.ofNat 20 i.payload.length) (hp : p = i.payload) : encode i = w.bytes ++ p := by
  rw [encode, Instr.header, ← hop, ← haddr, ← hlen, Header.make_fields, hp]

/-- Settles O2: the operation code decides the request, and the header and payload of that request are those given. -/
theorem encodeOfDecode : Obligations.EncodeOfDecode := by
  intro f i h
  obtain ⟨w, p, rfl⟩ := exists_header_of_decode h
  rcases (decode_bytes_eq_ok_iff w p i).1 h with ⟨hop, haddr, hlen, rfl, hp⟩ | ⟨hop, hlen, rfl⟩ | ⟨hop, hlen, rfl, hp⟩ |
    ⟨hop, hlen, rfl, hp⟩ | ⟨hop, hlen, rfl, hp⟩ | ⟨hop, hlen, rfl, hp⟩
  · exact ⟨encode_eq_of_fields hop haddr hlen hp, rfl⟩
  · refine ⟨encode_eq_of_fields hop rfl ?_ rfl, ?_⟩
    · rw [Instr.payload, hlen, BitVec.ofNat_toNat, BitVec.setWidth_eq]
    · rw [Instr.wf, decide_eq_true_iff, hlen]; exact w.len.isLt
  all_goals exact ⟨encode_eq_of_fields hop rfl hlen hp, rfl⟩

/-- Settles O6: each word is decoded; the payload of 65536 arbitrary bytes follows the header of the LOADB that
carries it. -/
theorem workedEncodings : Obligations.WorkedEncodings := by
  refine ⟨by decide, by decide, by decide, by decide, fun p hp => ?_, by decide, by decide, by decide, by decide, by decide,
    by decide, by decide⟩
  have hheader : (Instr.loadb 0x0000 p).header = 0x2000010000#40 := by
    rw [Instr.header, Instr.payload, hp]
    exact (by decide : Header.make 2 0 65536 = 0x2000010000#40)
  have hencode : encode (.loadb 0x0000 p) = [0x20, 0x00, 0x01, 0x00, 0x00] ++ p := by
    rw [encode, hheader]; rfl
  rw [← hencode]
  exact decode_encode (by rw [Instr.wf, hp]; decide)

end Sys2Proof
end

section
/-! The step: presented requests run one after the other (30_encoding.md R75), no request reaches the configuration, the
phase or the queue, and no step faults (60_exceptions.md R157). -/
namespace Sys2Proof.Machine

/-! ## What a step does with the first presented request -/

theorem step_of_decode {s : State} {f : List Byte} {rest : List (List Byte)} {i : Instr} (hpending : s.pending = f :: rest)
    (hf : decode f = .ok i) : step s = exec i (withPending s rest) := by
  simp only [step, takeRequest, hpending, hf]

theorem step_idle {s : State} (hpending : s.pending = []) : step s = .next s := by
  simp only [step, takeRequest, hpending]

/-- Settles O7: the bytes at the front of the queue are what the block takes and decodes. -/
theorem stepRunsPresentedRequest : Obligations.StepRunsPresentedRequest :=
  fun _ _ _ _ hpending hf => step_of_decode hpending hf

/-- Settles O8: from an empty queue there is nothing to take. -/
theorem idleStepChangesNothing : Obligations.IdleStepChangesNothing := fun _ => step_idle

theorem decode_of_decodeTableWord {nbits w : Nat} {i : Instr} (h : decodeTableWord nbits w = some i) :
    decode (bytesOfTableWord nbits w) = .ok i := by
  unfold decodeTableWord at h
  cases hf : decode (bytesOfTableWord nbits w) with
  | ok j => rw [hf] at h; cases h; rfl
  | error e => rw [hf] at h; cases h

/-- Settles O9: the step takes the word's bytes off the queue again, which leaves the state as it was. -/
theorem tableWordIsFetched : Obligations.TableWordIsFetched :=
  fun s _ _ _ h => step_of_decode (s := presentNext s _) rfl (decode_of_decodeTableWord h)

/-! ## Runs of steps -/

theorem step_presentAll_cons (s : State) {i : Instr} (hwf : i.wf = true) (is : List Instr) :
    step (presentAll s (i :: is)) = exec i (presentAll s is) :=
  step_of_decode (s := presentAll s (i :: is)) rfl (decode_encode hwf)

/-- Settles O10, by induction on the requests: each step takes one, which does the same with the others queued. -/
theorem presentedRunIsRequestRun : Obligations.PresentedRunIsRequestRun := by
  intro is
  induction is with
  | nil => rintro s t rs - h; cases h; rfl
  | cons i is ih =>
    intro s t rs hwf h
    obtain ⟨u, qs, hexec, hrun, -⟩ := runRequests_cons_eq_some h
    have hstep : step (presentAll s (i :: is)) = .next (presentAll u is) :=
      (step_presentAll_cons s (hwf i List.mem_cons_self) is).trans (exec_withPending _ hexec)
    rw [List.length_cons, run_succ core is.length (presentAll s (i :: is)) (presentAll u is) hstep]
    exact ih u t qs (fun j hj => hwf j (List.mem_cons_of_mem i hj)) hrun

/-! ## What no request changes -/

/-- `t` is a block of the configuration and in the phase of `s`. -/
abbrev SameConfigPhase (s t : State) : Prop := t.cfg = s.cfg ∧ t.phase = s.phase

theorem loadWay_sameConfigPhase {s t : State} {a : Addr} {w : Nat} (h : loadWay s a w = some t) : SameConfigPhase s t := by
  unfold loadWay at h
  split at h
  · cases h
  · cases h; simp [SameConfigPhase]

theorem fillBlock_sameConfigPhase {s t : State} {a : Addr} {w : Nat} (h : fillBlock s a = some (w, t)) :
    SameConfigPhase s t := by
  unfold fillBlock at h
  cases hl : lookup s a with
  | some w₀ =>
    simp only [hl, Option.map_eq_some_iff] at h
    obtain ⟨u, hu, he⟩ := h
    cases he; exact loadWay_sameConfigPhase hu
  | none =>
    simp only [hl, Option.map_eq_some_iff] at h
    obtain ⟨u, hu, he⟩ := h
    cases he; simpa [SameConfigPhase] using loadWay_sameConfigPhase hu

theorem storeBytes_inv {s t : State} {a : Nat} {bytes : List Byte} {r : Response} (h : storeBytes s a bytes r = .next t) :
    ∃ m, t = withResponse (withStore s m) r := by
  unfold storeBytes at h
  split at h
  · cases h; exact ⟨_, rfl⟩
  · cases h

/-- A request that keeps configuration and phase and is answered when it runs is so in either phase. -/
theorem whenReady_answered {s t : State} {run : Result}
    (hrun : run = .next t → SameConfigPhase s t ∧ t.response.isSome = true) (h : whenReady s run = .next t) :
    SameConfigPhase s t ∧ t.response.isSome = true := by
  cases hp : s.phase with
  | ready => rw [whenReady_ready hp] at h; exact hrun h
  | configFault => rw [whenReady_configFault hp] at h; cases h; exact ⟨⟨rfl, rfl⟩, rfl⟩

/-- Every request keeps configuration and phase and is answered, in every state. -/
theorem exec_answered {s t : State} {i : Instr} (h : exec i s = .next t) :
    SameConfigPhase s t ∧ t.response.isSome = true := by
  cases i with
  | reset =>
    refine whenReady_answered (fun hrun => ?_) h
    split at hrun <;> cases hrun <;> exact ⟨⟨rfl, rfl⟩, rfl⟩
  | loadb a bytes =>
    refine whenReady_answered (fun hrun => ?_) h
    split at hrun
    · split at hrun
      · obtain ⟨m, rfl⟩ := storeBytes_inv hrun; exact ⟨⟨rfl, rfl⟩, rfl⟩
      · cases hrun; exact ⟨⟨rfl, rfl⟩, rfl⟩
    · obtain ⟨m, rfl⟩ := storeBytes_inv hrun; exact ⟨⟨rfl, rfl⟩, rfl⟩
  | readb a =>
    refine whenReady_answered (fun hrun => ?_) h
    cases hl : lookup s a with
    | some w => simp only [hl] at hrun; cases hrun; simp [SameConfigPhase]
    | none =>
      simp only [hl] at hrun
      cases hf : fillBlock s a with
      | some p => rw [hf] at hrun; cases hrun; exact ⟨(fillBlock_sameConfigPhase hf :), rfl⟩
      | none => rw [hf] at hrun; cases hrun
  | ishit a =>
    refine whenReady_answered (fun hrun => ?_) h
    cases hrun; exact ⟨⟨rfl, rfl⟩, rfl⟩
  | lookup a =>
    refine whenReady_answered (fun hrun => ?_) h
    split at hrun <;> cases hrun <;> exact ⟨⟨rfl, rfl⟩, rfl⟩
  | fill a =>
    refine whenReady_answered (fun hrun => ?_) h
    cases hf : fillBlock s a with
    | some p => rw [hf] at hrun; cases hrun; exact ⟨(fillBlock_sameConfigPhase hf :), rfl⟩
    | none => rw [hf] at hrun; cases hrun

/-- No request writes the queue: run with the queue it has, it leaves that queue. -/
theorem exec_pending {s t : State} {i : Instr} (h : exec i s = .next t) : t.pending = s.pending := by
  have hsame : Host.Outcome.next t = Host.Outcome.next (withPending t s.pending) :=
    h.symm.trans (exec_withPending s.pending h)
  injection hsame with hsame
  exact (congrArg State.pending hsame :)

/-- Settles O11: configuration, phase and answer request by request; the queue because no request reads it. -/
theorem configurationIsConstant : Obligations.ConfigurationIsConstant := by
  intro i s t h
  obtain ⟨⟨hcfg, hphase⟩, hanswered⟩ := exec_answered h
  exact ⟨hcfg, hphase, exec_pending h, hanswered⟩

/-! ## No step faults -/

/-- Every request completes in a block that meets the invariant, Ready or in ConfigFault. -/
theorem State.Inv.exec_completes {s : State} (hinv : s.Inv) (i : Instr) : ∃ t, exec i s = .next t := by
  rcases hinv with ⟨hs, -⟩ | habsent
  · exact Machine.exec_completes hs i
  · exact ⟨_, exec_configFault habsent.phase i⟩

/-- The queue is no part of the invariant. -/
theorem State.Inv.withPending {s : State} (hinv : s.Inv) (fs : List (List Byte)) : (withPending s fs).Inv := by
  rcases hinv with ⟨hs, hrest⟩ | habsent
  · exact .inl ⟨hs.withPending fs, hrest⟩
  · exact .inr ⟨habsent.illegal, habsent.phase, habsent.lines, habsent.bs, habsent.rr, habsent.lru⟩

/-- Settles O21: a step is idle, or runs a request, which completes, or refuses bytes that spell none. -/
theorem stepNeverFaults : Obligations.StepNeverFaults := by
  intro s hinv
  cases hpending : s.pending with
  | nil => exact .inl ⟨s, step_idle hpending⟩
  | cons f rest =>
    cases hf : decode f with
    | ok i =>
      rw [step_of_decode hpending hf]
      exact .inl ((hinv.withPending rest).exec_completes i)
    | error e => exact .inr ⟨f, rest, e, rfl, hf, step_of_decode_error hpending hf⟩

end Sys2Proof.Machine
end

section
/-! The address decoder: the bounds of a block (40_address_decoder.md R83, R84, R88), the decomposition as a bijection
(R86), the size of each set (R87), and the fields of a block (R89). -/
namespace Sys2Proof.Machine

variable {c : Config}

/-! ## The bounds of a block -/

theorem blockStart_mod_blockSize (c : Config) (a : Addr) : blockStart c a % c.blockSize = 0 := by
  rw [blockStart_eq_mul]; exact Nat.mul_mod_right _ _

theorem le_blockEnd (c : Config) (a : Addr) : a.toNat ≤ blockEnd c a :=
  ((in_block_iff c a a.toNat).2 rfl).2

theorem blockEnd_lt (hc : c.Legal) (a : Addr) : blockEnd c a < addressSpace := by
  have hinside := blockStart_add_blockSize_le c a hc
  have hpos := Config.blockSize_pos c
  unfold blockEnd; omega

/-- Settles O13: a block starts at a multiple of its size, and the last one ends where the store does. -/
theorem blockBounds : Obligations.BlockBounds := by
  intro c a hc
  have hpos := Config.blockSize_pos c
  exact ⟨rfl, blockStart_mod_blockSize c a, rfl, by unfold blockEnd; omega, Nat.sub_le _ _, le_blockEnd c a,
    Nat.le_of_lt_succ (blockEnd_lt hc a)⟩

/-! ## Fields and addresses -/

/-- The address whose fields are `t`, `i` and `o`, as a number. -/
def addressOf (c : Config) (t i o : Nat) : Nat := c.blockSize * (c.numSets * t + i) + o

theorem addressOf_lt (hc : c.Legal) {t i o : Nat} (ht : t < 2 ^ c.tagBits) (hi : i < c.numSets) (ho : o < c.blockSize) :
    addressOf c t i o < addressSpace := sum_lt c hc ht hi ho

/-- An address is the one made of its fields. -/
theorem addressOf_fields (c : Config) (a : Addr) : addressOf c (tagOf c a) (setIndex c a) (offsetOf c a) = a.toNat :=
  (toNat_eq_sum c a).symm

theorem toNat_addressOf (hc : c.Legal) {t i o : Nat} (ht : t < 2 ^ c.tagBits) (hi : i < c.numSets) (ho : o < c.blockSize) :
    (BitVec.ofNat 16 (addressOf c t i o)).toNat = addressOf c t i o :=
  Nat.mod_eq_of_lt (addressOf_lt hc ht hi ho)

/-- The fields of the address made of fields in range are those fields. -/
theorem fields_addressOf (hc : c.Legal) {t i o : Nat} (ht : t < 2 ^ c.tagBits) (hi : i < c.numSets) (ho : o < c.blockSize) :
    tagOf c (BitVec.ofNat 16 (addressOf c t i o)) = t ∧ setIndex c (BitVec.ofNat 16 (addressOf c t i o)) = i ∧
      offsetOf c (BitVec.ofNat 16 (addressOf c t i o)) = o :=
  fields_of_sum c _ hi ho (toNat_addressOf hc ht hi ho)

/-- Settles O15: the one address is the sum of the fields, each in its place. -/
theorem decompositionIsUnique : Obligations.DecompositionIsUnique := by
  intro c t i o hc ht hi ho
  refine ⟨BitVec.ofNat 16 (addressOf c t i o), fields_addressOf hc ht hi ho, ?_⟩
  rintro b ⟨rfl, rfl, rfl⟩
  exact BitVec.eq_of_toNat_eq ((addressOf_fields c b).symm.trans (toNat_addressOf hc ht hi ho).symm)

/-! ## How many addresses a set has -/

/-- The addresses of set `i` whose offset is one of `offsets`: one for each tag and each of these offsets. -/
theorem card_addresses_of_set (hc : c.Legal) {i : Nat} (hi : i < c.numSets) (offsets : Finset Nat)
    (hoffsets : ∀ o ∈ offsets, o < c.blockSize) (p : Nat → Prop) [DecidablePred p]
    (hp : ∀ n < addressSpace, p n ↔ setIndex c (BitVec.ofNat 16 n) = i ∧ offsetOf c (BitVec.ofNat 16 n) ∈ offsets) :
    ((List.range addressSpace).filter fun n => p n).length = 2 ^ c.tagBits * offsets.card := by
  have hlist : ((List.range addressSpace).filter fun n => p n).length = ((Finset.range addressSpace).filter p).card := rfl
  have hpairs : 2 ^ c.tagBits * offsets.card = (Finset.range (2 ^ c.tagBits) ×ˢ offsets).card := by
    rw [Finset.card_product, Finset.card_range]
  rw [hlist, hpairs]
  symm
  refine Finset.card_bij' (fun q _ => addressOf c q.1 i q.2)
    (fun n _ => (tagOf c (BitVec.ofNat 16 n), offsetOf c (BitVec.ofNat 16 n))) ?_ ?_ ?_ ?_
  · rintro ⟨t, o⟩ hq
    obtain ⟨ht, ho⟩ := Finset.mem_product.1 hq
    have hlt := addressOf_lt hc (Finset.mem_range.1 ht) hi (hoffsets o ho)
    obtain ⟨-, hset, hoffset⟩ := fields_addressOf hc (Finset.mem_range.1 ht) hi (hoffsets o ho)
    exact Finset.mem_filter.2 ⟨Finset.mem_range.2 hlt, (hp _ hlt).2 ⟨hset, hoffset.symm ▸ ho⟩⟩
  · intro n hn
    obtain ⟨hlt, hpn⟩ := Finset.mem_filter.1 hn
    exact Finset.mem_product.2 ⟨Finset.mem_range.2 (tagOf_lt c _ hc), ((hp n (Finset.mem_range.1 hlt)).1 hpn).2⟩
  · rintro ⟨t, o⟩ hq
    obtain ⟨ht, ho⟩ := Finset.mem_product.1 hq
    obtain ⟨htag, -, hoffset⟩ := fields_addressOf hc (Finset.mem_range.1 ht) hi (hoffsets o ho)
    exact Prod.ext htag hoffset
  · intro n hn
    obtain ⟨hlt, hpn⟩ := Finset.mem_filter.1 hn
    obtain ⟨rfl, -⟩ := (hp n (Finset.mem_range.1 hlt)).1 hpn
    exact (addressOf_fields c _).trans (Nat.mod_eq_of_lt (Finset.mem_range.1 hlt))

/-- The first address of a block is the one of offset 0. -/
theorem blockStart_eq_iff {n : Nat} (hn : n < addressSpace) :
    blockStart c (BitVec.ofNat 16 n) = n ↔ offsetOf c (BitVec.ofNat 16 n) = 0 := by
  have hsum := blockStart_add_offset c (BitVec.ofNat 16 n)
  have hnat : (BitVec.ofNat 16 n).toNat = n := Nat.mod_eq_of_lt hn
  omega

/-- Settles O16: a set has one address for each tag and offset, and one block, an address of offset 0, for each tag. -/
theorem partitionIsUniform : Obligations.PartitionIsUniform := by
  intro c i hc hi
  constructor
  · have hcount := card_addresses_of_set hc hi (Finset.range c.blockSize) (fun o => Finset.mem_range.1)
      (fun n => setIndex c (BitVec.ofNat 16 n) = i) fun n _ => by simp [offsetOf_lt]
    have hsizes : c.numSets * (2 ^ c.tagBits * c.blockSize) = 65536 :=
      (by ring : _ = c.blockSize * (c.numSets * 2 ^ c.tagBits)).trans (sizes_mul c hc)
    rw [hcount, Finset.card_range, ← hsizes, Nat.mul_div_cancel_left _ (Config.numSets_pos c)]
  · have hcount := card_addresses_of_set hc hi {0} (fun o ho => Finset.mem_singleton.1 ho ▸ Config.blockSize_pos c)
      (fun n => setIndex c (BitVec.ofNat 16 n) = i ∧ blockStart c (BitVec.ofNat 16 n) = n)
      fun n hn => by rw [blockStart_eq_iff hn, Finset.mem_singleton]
    rw [hcount, Finset.card_singleton, Nat.mul_one]

/-! ## The fields of a block -/

/-- Settles O17: the addresses from the first of a block to its last have one block number. -/
theorem sameBlockSameFields : Obligations.SameBlockSameFields := by
  intro c a b _ hstart hend
  obtain ⟨htag, hset, hblock⟩ := same_block c b ((in_block_iff c a b.toNat).1 ⟨hstart, hend⟩)
  refine ⟨htag, hset, hblock, by rw [blockEnd, blockEnd, hblock], ?_⟩
  rw [← hblock, ← blockStart_add_offset c b, Nat.add_sub_cancel_left]

end Sys2Proof.Machine
end

section
/-! Two requests one after the other: what a second READB, LOOKUP, ISHIT or FILL answers (41_lookup.md R98; 42_fill.md
R104; 20_memory.md R48), and what READB answers after RESET and after LOADB (R50, R53, R55). -/
namespace Sys2Proof.Machine

/-! ## The addresses of one block -/

/-- `Lookup` finds the same for every address of a block. -/
theorem lookup_in_block {s : State} {a b : Addr} (hstart : blockStart s.cfg a ≤ b.toNat)
    (hend : b.toNat ≤ blockEnd s.cfg a) : lookup s b = lookup s a := by
  obtain ⟨htag, hset, -⟩ := same_block s.cfg b ((in_block_iff s.cfg a b.toNat).1 ⟨hstart, hend⟩)
  rw [lookup, lookup, htag, hset]

/-- Settles O29: LOOKUP and ISHIT answer by what `Lookup` finds, in every state. -/
theorem blockWideAgreement : Obligations.BlockWideAgreement := by
  intro s a b hstart hend
  simp only [exec, execLookup, execIshit, lookup_in_block hstart hend, and_self]

/-! ## A second FILL -/

/-- Settles O33: the second FILL finds the block where the first put it, and filling twice is filling once. -/
theorem fillIsIdempotent : Obligations.FillIsIdempotent := by
  intro s t a r hs h hr
  have ht := hs.exec h
  rw [exec_fill_inv hs h] at hr ht ⊢
  cases hr
  refine (execFill_eq ht a).trans ?_
  rw [filled_withResponse, filled_filled hs, fillWay_withResponse, lookup_withResponse, lookup_filled hs,
    fillWay_hit (lookup_filled hs a)]
  rfl

/-! ## A second READB -/

/-- After READB the block is found in the way answered, and the byte selected there is the byte answered. -/
theorem lookup_after_readb {s t : State} {a : Addr} {r : Response} (hs : s.Shaped) (h : exec (.readb a) s = .next t)
    (hr : t.response = some r) : r.status = .ok ∧ lookup t a = some r.way ∧ byteAt t a r.way = r.data := by
  rcases exec_readb_inv hs h with ⟨w, hw, rfl⟩ | ⟨-, rfl⟩
  · cases hr
    refine ⟨rfl, ?_, by simp⟩
    rw [lookup_withResponse, lookup_touch]
    exact (hs.lookup_some a w).2 hw
  · cases hr
    exact ⟨rfl, lookup_filled hs a, rfl⟩

/-- Settles O35: the second READB hits in the way the first answered and selects the same byte. -/
theorem secondReadHitsWithTheSameByte : Obligations.SecondReadHitsWithTheSameByte := by
  intro s t a r hs h hr
  obtain ⟨hstatus, hfound, hbyte⟩ := lookup_after_readb hs h hr
  refine ⟨_, execReadb_hit (hs.exec h).phase hfound, ?_⟩
  rw [withResponse_response, hbyte, hstatus]

/-! ## READB after RESET -/

/-- In a set with way 0 invalid, way 0 is filled. -/
theorem fillWay_eq_zero {s : State} (hs : s.Shaped) {a : Addr} (hmiss : ¬ Resident s a)
    (hfree : (lineAt s (setIndex s.cfg a) 0).valid = false) : fillWay s a = 0 :=
  (fillWay_miss hs ((hs.lookup_none a).2 hmiss)).unique
    (.inl ⟨hs.legal.2.2, hfree, fun v hv => absurd hv (Nat.not_lt_zero v)⟩)

/-- Settles O25: after RESET every way is invalid and every byte of the store is 0x00. -/
theorem afterResetReadsZero : Obligations.AfterResetReadsZero := by
  intro s t a hp hc h
  have ht : (withResponse (resetAll s) okResponse).Shaped := (State.Shaped.resetAll hp hc).withResponse okResponse
  have hmiss := not_resident_resetAll s a
  have hfree : (lineAt (withResponse (resetAll s) okResponse) (setIndex s.cfg a) 0).valid = false := by
    rw [lineAt_resetAll (setIndex_lt s.cfg a) hc.2.2]; rfl
  rw [exec_reset_inv hp hc h]
  refine ⟨_, exec_readb_miss ht hmiss, ?_⟩
  rw [withResponse_response, fillWay_eq_zero ht hmiss hfree]
  rfl

/-! ## READB after LOADB -/

/-- LOADB leaves the configuration and the lines, so the same ways match. -/
theorem firstMatch_after_loadb {s t : State} {a b : Addr} {bytes : List Byte} {w : Nat} (hs : s.Shaped)
    (hw : FirstMatch s a w) (h : exec (.loadb b bytes) s = .next t) : FirstMatch t a w := by
  refine (firstMatch_congr (exec_cfg hs h) (fun v _ => ?_) w).2 hw
  rw [lineAt_of_lines (exec_loadb_lines hs h)]
  exact ⟨rfl, rfl⟩

/-- Settles O40: before and after the LOADB the same way is found, and its line is the same. -/
theorem loadbDoesNotReachResidentLines : Obligations.LoadbDoesNotReachResidentLines := by
  intro s t a b bytes hs hres h
  obtain ⟨w, hw⟩ := exists_firstMatch hs hres
  have hlines := exec_loadb_lines hs h
  refine ⟨_, _, exec_readb_hit hs hw, exec_readb_hit (hs.exec h) (firstMatch_after_loadb hs hw h), ?_, ?_⟩
  · rw [withResponse_response, withResponse_response, byteAt, byteAt, exec_cfg hs h, lineAt_of_lines hlines]
  · simpa using hlines

/-- A LOADB of one byte always fits, and the store then has that byte at its address. -/
theorem read_after_loadb_one {s t : State} (hs : s.Shaped) {a : Addr} {v : Byte} (h : exec (.loadb a [v]) s = .next t) :
    t.bs.read a.toNat = v := by
  have hin : a.toNat + [v].length ≤ addressSpace := a.isLt
  cases (execLoadb_inside hs.phase hin).symm.trans h
  exact Memory.read_writeAll_written hs.store hin (i := 0) Nat.one_pos

/-- A READB right after a FILL hits and answers the byte of the store. -/
theorem exec_readb_after_fill {s t : State} {a : Addr} (hs : s.Shaped) (h : exec (.fill a) s = .next t) :
    ∃ x r, exec (.readb a) t = .next x ∧ x.response = some r ∧ r.hit = true ∧ r.data = s.bs.read a.toNat := by
  have hp := (hs.exec h).phase
  rw [exec_fill_inv hs h] at hp ⊢
  exact ⟨_, _, execReadb_hit hp (lookup_filled hs a), rfl, rfl, byteAt_filled hs a⟩

/-- Settles O41: LOADB puts the byte in the store and makes nothing resident; READB that misses, and FILL, read the
store. -/
theorem loadedByteIsSeen : Obligations.LoadedByteIsSeen := by
  intro s t a v hs h
  have ht := hs.exec h
  have hread := read_after_loadb_one hs h
  refine ⟨fun hmiss => ?_, fun u hu => ?_⟩
  · have hmiss' : ¬ Resident t a := mt (resident_congr (exec_cfg hs h) (exec_loadb_lines hs h) a).1 hmiss
    exact ⟨_, _, exec_readb_miss ht hmiss', rfl, rfl, hread⟩
  · rw [← hread]; exact exec_readb_after_fill ht hu

end Sys2Proof.Machine
end

section
/-! The invariant of the machine (10_state.md R15, R18, R28, R30): it holds at system start, and every step keeps it. -/
namespace Sys2Proof.Machine

/-! ## The invariant as properties of the lines -/

/-- Every line of the block is the reset line. -/
abbrev State.LinesReset (s : State) : Prop :=
  ∀ x < s.cfg.numSets, ∀ w < s.cfg.associativity, lineAt s x w = resetLine s.cfg

/-- What the invariant says of the lines of a Ready block. -/
structure State.LinesInv (s : State) : Prop where
  uniq : s.Uniq
  clean : s.Clean
  waysPrefix : s.WaysPrefix
  invalidZero : s.InvalidZero

theorem State.Inv.of_linesInv {s : State} (hs : s.Shaped) (hl : s.LinesInv) : s.Inv :=
  .inl ⟨hs, hl.uniq, hl.clean, hl.waysPrefix, hl.invalidZero⟩

/-- A Ready block that meets the invariant. -/
theorem State.Inv.ready {s : State} (hinv : s.Inv) (hp : s.phase = .ready) : s.Shaped ∧ s.LinesInv := by
  rcases hinv with ⟨hs, huniq, hclean, hprefix, hzero⟩ | habsent
  · exact ⟨hs, huniq, hclean, hprefix, hzero⟩
  · rw [habsent.phase] at hp; cases hp

theorem State.LinesReset.linesInv {s : State} (h : s.LinesReset) : s.LinesInv where
  uniq := by
    rintro x hx w₁ hw₁ w₂ - - ⟨hvalid, -⟩
    rw [h x hx w₁ hw₁] at hvalid
    cases hvalid
  clean x hx w hw := by rw [h x hx w hw]; rfl
  waysPrefix x hx := ⟨0, Nat.zero_le _, fun w hw => by rw [h x hx w hw]; simp [resetLine]⟩
  invalidZero x hx w hw _ := h x hx w hw

theorem State.LinesInv.congr {s t : State} (h : s.LinesInv) (hc : t.cfg = s.cfg) (hl : t.lines = s.lines) : t.LinesInv where
  uniq := h.uniq.congr hc hl
  clean := by simpa only [State.Clean, hc, lineAt_of_lines hl] using h.clean
  waysPrefix := by simpa only [State.WaysPrefix, hc, lineAt_of_lines hl] using h.waysPrefix
  invalidZero := by simpa only [State.InvalidZero, hc, lineAt_of_lines hl] using h.invalidZero

/-! ## RESET and system start -/

theorem linesReset_resetAll (s : State) : (withResponse (resetAll s) okResponse).LinesReset :=
  fun _ hx _ hw => lineAt_resetAll hx hw

theorem linesReset_start {c : Config} (hc : c.Legal) : (State.start c).LinesReset := by
  have hcfg : (State.start c).cfg = c := by rw [start_of_legal hc]; rfl
  intro x hx w hw
  rw [hcfg] at hx hw ⊢
  exact lineAt_start hc hx hw

/-- The block at system start is as RESET leaves it. -/
theorem resetAll_start {c : Config} (hc : c.Legal) : resetAll (State.start c) = State.start c := by
  rw [start_of_legal hc]; exact resetAll_eq_ready rfl

theorem shaped_start {c : Config} (hc : c.Legal) : (State.start c).Shaped := by
  rw [← resetAll_start hc, start_of_legal hc]
  exact State.Shaped.resetAll rfl hc

theorem inv_start (c : Config) : (State.start c).Inv := by
  by_cases hc : c.Legal
  · exact .of_linesInv (shaped_start hc) (linesReset_start hc).linesInv
  · exact .inr (absent_start hc)

/-- Settles O51: a legal block starts with reset lines, an illegal one with nothing. -/
theorem startSatisfiesInv : Obligations.StartSatisfiesInv := ⟨inv_start Config.reference, inv_start⟩

/-! ## A fill keeps the invariant -/

theorem clean_filled {s : State} (hs : s.Shaped) (hclean : s.Clean) (a : Addr) : (filled s a).Clean := by
  intro x hx w hw
  rw [filled_cfg] at hx hw
  rw [lineAt_filled hs]
  split
  · rfl
  · exact hclean x hx w hw

theorem invalidZero_filled {s : State} (hs : s.Shaped) (hzero : s.InvalidZero) (a : Addr) : (filled s a).InvalidZero := by
  intro x hx w hw
  rw [filled_cfg] at hx hw ⊢
  rw [lineAt_filled hs]
  split
  · intro hinvalid; cases hinvalid
  · exact hzero x hx w hw

/-- A fill makes the way filled valid and changes no other valid bit. -/
theorem valid_filled {s : State} (hs : s.Shaped) (a : Addr) (x w : Nat) :
    (lineAt (filled s a) x w).valid = (decide (x = setIndex s.cfg a ∧ w = fillWay s a) || (lineAt s x w).valid) := by
  rw [lineAt_filled hs]
  split
  · next hline => simp [hline, loadedLine]
  · next hline => simp [hline]

/-- The way filled is below the count of valid ways, a reload or an eviction; or it is the first one not valid, and there
is room for it. -/
theorem fillWay_lt_or_eq {s : State} (hs : s.Shaped) {a : Addr} {k : Nat}
    (hvalid : ∀ w < s.cfg.associativity, (lineAt s (setIndex s.cfg a) w).valid = decide (w < k)) :
    fillWay s a < k ∨ fillWay s a = k := by
  have hlt := fillWay_lt hs a
  cases hl : lookup s a with
  | some w₀ =>
    obtain ⟨hw₀, ⟨hv₀, -⟩, -⟩ := (hs.lookup_some a w₀).1 hl
    rw [fillWay_hit hl]
    rw [hvalid w₀ hw₀] at hv₀
    exact .inl (of_decide_eq_true hv₀)
  | none =>
    rcases fillWay_miss hs hl with ⟨-, -, hbelow⟩ | ⟨hfull, -⟩ | ⟨hfull, -⟩
    · by_contra hgt
      have hk : k < fillWay s a := by omega
      have hvk := hbelow k hk
      rw [hvalid k (hk.trans hlt)] at hvk
      exact absurd (of_decide_eq_true hvk) (lt_irrefl k)
    all_goals
      have hv := hfull _ hlt
      rw [hvalid _ hlt] at hv
      exact .inl (of_decide_eq_true hv)

theorem waysPrefix_filled {s : State} (hs : s.Shaped) (hprefix : s.WaysPrefix) (a : Addr) : (filled s a).WaysPrefix := by
  intro x hx
  rw [filled_cfg] at hx ⊢
  obtain ⟨k, hk, hvalid⟩ := hprefix x hx
  simp only [valid_filled hs]
  by_cases hset : x = setIndex s.cfg a
  · subst hset
    rcases fillWay_lt_or_eq hs hvalid with hlt | heq
    · refine ⟨k, hk, fun w hw => ?_⟩
      rw [hvalid w hw, Bool.eq_iff_iff]
      simp only [true_and, Bool.or_eq_true, decide_eq_true_iff]
      omega
    · have hroom := fillWay_lt hs a
      refine ⟨k + 1, by omega, fun w hw => ?_⟩
      rw [hvalid w hw, Bool.eq_iff_iff]
      simp only [true_and, Bool.or_eq_true, decide_eq_true_iff]
      omega
  · refine ⟨k, hk, fun w hw => ?_⟩
    rw [hvalid w hw]
    simp [hset]

theorem State.LinesInv.of_fill {s : State} (hs : s.Shaped) (h : s.LinesInv) (a : Addr) : (filled s a).LinesInv :=
  ⟨State.Uniq.filled hs h.uniq a, clean_filled hs h.clean a, waysPrefix_filled hs h.waysPrefix a,
    invalidZero_filled hs h.invalidZero a⟩

/-! ## Every request and every step keeps the invariant -/

theorem State.LinesInv.of_exec {s t : State} {i : Instr} (hs : s.Shaped) (hl : s.LinesInv) (h : exec i s = .next t) :
    t.LinesInv := by
  rcases exec_lines_inv hs h with rfl | ⟨hlines, hcfg, -⟩ | ⟨a, r, -, rfl, -⟩
  · rw [exec_reset_inv hs.phase hs.legal h]
    exact (linesReset_resetAll s).linesInv
  · exact hl.congr hcfg hlines
  · exact (hl.of_fill hs a).congr rfl rfl

theorem State.Inv.of_exec {s t : State} {i : Instr} (hinv : s.Inv) (h : exec i s = .next t) : t.Inv := by
  cases hp : s.phase with
  | ready =>
    obtain ⟨hs, hl⟩ := hinv.ready hp
    exact .of_linesInv (hs.exec h) (hl.of_exec hs h)
  | configFault =>
    rw [exec_configFault hp] at h
    cases h
    rcases hinv with ⟨hs, -⟩ | habsent
    · have hready := hs.phase
      rw [hp] at hready; cases hready
    · exact .inr ⟨habsent.illegal, habsent.phase, habsent.lines, habsent.bs, habsent.rr, habsent.lru⟩

/-- Settles O52: a step that completes is idle or runs a request on the state with one request fewer in the queue. -/
theorem stepKeepsInv : Obligations.StepKeepsInv := by
  intro s t hinv h
  cases hpending : s.pending with
  | nil =>
    rw [step_idle hpending] at h
    cases h; exact hinv
  | cons f rest =>
    cases hf : decode f with
    | ok i =>
      rw [step_of_decode hpending hf] at h
      exact (hinv.withPending rest).of_exec h
    | error e =>
      rw [step_of_decode_error hpending hf] at h
      cases h

end Sys2Proof.Machine
end

section
/-! The victim selector and the FIFO pointer (43_replacement.md R110 to R114), and that a READB or FILL concerns one set
(R111). -/
namespace Sys2Proof.Machine

/-! ## The contract of a policy -/

/-- A set that is not full has its lowest invalid way as victim. -/
theorem IsVictim.invalid {s : State} {x w : Nat} (hw : IsVictim s x w) (hfull : ¬ SetFull s x) :
    w < s.cfg.associativity ∧ (lineAt s x w).valid = false ∧ ∀ v < w, (lineAt s x v).valid = true := by
  rcases hw with hinvalid | ⟨hfull', -⟩ | ⟨hfull', -⟩
  · exact hinvalid
  all_goals exact absurd hfull' hfull

/-- Settles O42: what the selector names is the victim, of which there is one. -/
theorem victimContract : Obligations.VictimContract := by
  intro s x hs hx
  obtain ⟨hvictim, hlt, hleft⟩ := selectVictim_spec hs hx
  refine ⟨hlt, hvictim, fun v hv => hv.unique hvictim, fun hfull => ?_, ?_⟩
  · obtain ⟨-, hinvalid, hbelow⟩ := hvictim.invalid hfull
    refine ⟨hinvalid, fun v _ hv => Nat.le_of_not_lt fun hlow => ?_⟩
    rw [hbelow v hlow] at hv
    cases hv
  · rw [hleft]
    split <;> rfl

/-! ## The FIFO pointer -/

/-- A request that fills nothing and is no RESET moves no pointer. -/
theorem exec_rr_of_not_filled {s t : State} {i : Instr} (hs : s.Shaped) (hreset : i ≠ .reset) (h : exec i s = .next t)
    {r : Response} (hr : t.response = some r) (hfilled : r.filled = false) : t.rr = s.rr := by
  cases i with
  | reset => exact absurd rfl hreset
  | loadb a bytes => cases (exec_loadb_eq hs.phase a bytes).symm.trans h; rfl
  | readb a =>
    rcases exec_readb_inv hs h with ⟨w, -, rfl⟩ | ⟨-, rfl⟩
    · simp
    · cases hr; cases hfilled
  | ishit a => rw [exec_ishit_inv hs.phase h]; rfl
  | lookup a => rw [exec_lookup_inv hs.phase h]; rfl
  | fill a => rw [exec_fill_inv hs h] at hr; cases hr; cases hfilled

/-- The pointers read off equal pointer arrays are equal. -/
theorem rrAt_of_rr {s t : State} (h : t.rr = s.rr) (x : Nat) : rrAt t x = rrAt s x := by rw [rrAt, rrAt, h]

theorem rrAt_resetAll (s : State) (x : Nat) : rrAt (resetAll s) x = 0 := by
  rw [rrAt, resetAll_rr, resetRr]
  cases s.cfg.policy with
  | fifo => rw [List.getD_eq_getElem?_getD, List.getElem?_getD_replicate_default_eq]
  | lru => rfl

/-- A READB or FILL that misses fills, and answers the way filled. -/
theorem exec_miss_inv {s t : State} {i : Instr} {a : Addr} (hs : s.Shaped) (hi : i = .readb a ∨ i = .fill a)
    (hmiss : ¬ Resident s a) (h : exec i s = .next t) :
    ∃ r, t = withResponse (filled s a) r ∧ r.way = fillWay s a := by
  rcases hi with rfl | rfl
  · cases (exec_readb_miss hs hmiss).symm.trans h; exact ⟨_, rfl, rfl⟩
  · cases (exec_fill_miss hs hmiss).symm.trans h; exact ⟨_, rfl, rfl⟩

/-- The victim of a full set under FIFO is the way the pointer names. -/
theorem IsVictim.eq_rrAt {s : State} {x w : Nat} (hw : IsVictim s x w) (hfull : SetFull s x)
    (hfifo : s.cfg.policy = .fifo) : w = rrAt s x :=
  hw.unique (.inr (.inl ⟨hfull, hfifo, rfl⟩))

/-- Settles O44: of the requests that are not RESET only a fill that evicts moves a pointer, that of its set. -/
theorem fifoPointerMovesOnlyOnEviction : Obligations.FifoPointerMovesOnlyOnEviction := by
  intro s t i x hs hfifo hx h
  refine ⟨?reset, fun a hi hset hmiss hfull => ?evicts, fun hreset hother => ?other⟩
  case reset =>
    rintro rfl
    rw [exec_reset_inv hs.phase hs.legal h, rrAt_withResponse, rrAt_resetAll]
  case evicts =>
    subst hset
    obtain ⟨r, rfl, hway⟩ := exec_miss_inv hs hi hmiss h
    refine ⟨?_, r, rfl, ?_⟩
    · rw [rrAt_withResponse, rrAt_filled hs hfifo a hx, if_pos ⟨rfl, hmiss, hfull⟩]
    · rw [hway]; exact (fillWay_miss hs ((hs.lookup_none a).2 hmiss)).eq_rrAt hfull hfifo
  case other =>
    rcases (exec_lines_inv hs h).resolve_left hreset with ⟨-, -, r, hr, hfilled⟩ | ⟨a, r, hi, rfl, -⟩
    · exact rrAt_of_rr (exec_rr_of_not_filled hs hreset h hr hfilled) x
    · rw [rrAt_withResponse, rrAt_filled hs hfifo a hx, if_neg]
      rintro ⟨hset, hmiss, hfull⟩
      exact (hother a hi hset.symm).elim hmiss fun hnot => hnot hfull

/-! ## One set alone -/

/-- `u` has the configuration, the store, and the lines and replacement state of set `x` of `s`. -/
structure SameSet (s u : State) (x : Nat) : Prop where
  cfg : u.cfg = s.cfg
  bs : u.bs = s.bs
  lines : setAt u x = setAt s x
  rr : rrAt u x = rrAt s x
  lru : lruAt u x = lruAt s x

theorem SameSet.lineAt {s u : State} {x : Nat} (h : SameSet s u x) (w : Nat) : lineAt u x w = lineAt s x w := by
  rw [Machine.lineAt, Machine.lineAt, h.lines]

theorem SameSet.lookup {s u : State} {a : Addr} (h : SameSet s u (setIndex s.cfg a)) : lookup u a = lookup s a :=
  lookup_congr h.cfg h.lines

theorem SameSet.byteAt {s u : State} {a : Addr} (h : SameSet s u (setIndex s.cfg a)) (w : Nat) :
    byteAt u a w = byteAt s a w := by
  rw [Machine.byteAt, Machine.byteAt, h.cfg, h.lineAt]

theorem SameSet.setFull {s u : State} {x : Nat} (h : SameSet s u x) : SetFull u x ↔ SetFull s x := by
  simp only [SetFull, h.cfg, h.lineAt]

theorem SameSet.isVictim {s u : State} {x : Nat} (h : SameSet s u x) (w : Nat) : IsVictim u x w ↔ IsVictim s x w := by
  simp only [IsVictim, SetFull, h.cfg, h.lineAt, h.rr, h.lru]

theorem SameSet.fillWay {s u : State} {a : Addr} (hs : s.Shaped) (hu : u.Shaped) (h : SameSet s u (setIndex s.cfg a)) :
    fillWay u a = fillWay s a := by
  cases hl : Machine.lookup s a with
  | some w => rw [fillWay_hit hl, fillWay_hit (h.lookup.trans hl)]
  | none =>
    have hvictim := fillWay_miss hu (h.lookup.trans hl)
    rw [h.cfg] at hvictim
    exact ((h.isVictim _).1 hvictim).unique (fillWay_miss hs hl)

theorem SameSet.blockOf {s u : State} {x : Nat} (h : SameSet s u x) (a : Addr) : blockOf u a = blockOf s a := by
  rw [Machine.blockOf, Machine.blockOf, h.cfg, h.bs]

/-- The pointer of the set filled, under either policy. -/
theorem rrAt_filled_same {s : State} (hs : s.Shaped) (a : Addr) :
    rrAt (filled s a) (setIndex s.cfg a) =
      if lookup s a = none ∧ SetFull s (setIndex s.cfg a) ∧ s.cfg.policy = .fifo then
        (rrAt s (setIndex s.cfg a) + 1) % s.cfg.associativity else rrAt s (setIndex s.cfg a) := by
  cases hp : s.cfg.policy with
  | fifo =>
    rw [rrAt_filled hs hp a (setIndex_lt s.cfg a)]
    simp only [true_and, and_true, hs.lookup_none]
  | lru =>
    have hempty : (filled s a).rr = s.rr := by rw [(hs.filled a).rrLru ((filled_cfg s a).symm ▸ hp), hs.rrLru hp]
    simp [rrAt_of_rr hempty]

/-- A fill leaves alike what it finds alike. -/
theorem SameSet.of_fill {s u : State} {a : Addr} (hs : s.Shaped) (hu : u.Shaped) (h : SameSet s u (setIndex s.cfg a)) :
    SameSet (filled s a) (filled u a) (setIndex s.cfg a) where
  cfg := by simp [h.cfg]
  bs := by simp [h.bs]
  lines := by
    rw [setAt_filled, setAt_filled, h.cfg, if_pos rfl, if_pos rfl, h.lines, h.fillWay hs hu, h.blockOf]
  rr := by
    have hrr := rrAt_filled_same hu a
    simp only [h.cfg, h.lookup, h.setFull, h.rr] at hrr
    exact hrr.trans (rrAt_filled_same hs a).symm
  lru := by
    have hlru := lruAt_filled_same hu a
    rw [h.cfg] at hlru
    rw [hlru, lruAt_filled_same hs, h.fillWay hs hu, h.lru]

/-- A touch leaves alike what it finds alike. -/
theorem SameSet.of_touch {s u : State} {x w : Nat} (hs : s.Shaped) (hu : u.Shaped) (hx : x < s.cfg.numSets)
    (h : SameSet s u x) : SameSet (touch s x w) (touch u x w) x where
  cfg := by simp [h.cfg]
  bs := by simp [h.bs]
  lines := by simp [h.lines]
  rr := by simp [h.rr]
  lru := by rw [lruAt_touch_same hu (h.cfg.symm ▸ hx), lruAt_touch_same hs hx, h.cfg, h.lru]

theorem SameSet.withResponse {s u : State} {x : Nat} (h : SameSet s u x) (r q : Response) :
    SameSet (withResponse s r) (withResponse u q) x := ⟨h.cfg, h.bs, h.lines, h.rr, h.lru⟩

/-- `t` has every set but `x`, its lines and its replacement state, as `s` has it. -/
abbrev OtherSetsSame (s t : State) (x : Nat) : Prop :=
  ∀ y, y ≠ x → setAt t y = setAt s y ∧ rrAt t y = rrAt s y ∧ lruAt t y = lruAt s y

theorem otherSetsSame_touch (s : State) (x w : Nat) : OtherSetsSame s (touch s x w) x :=
  fun y hy => ⟨setAt_touch s x w y, rrAt_touch s x w y, lruAt_touch_other s hy⟩

theorem otherSetsSame_filled {s : State} (hs : s.Shaped) (a : Addr) : OtherSetsSame s (filled s a) (setIndex s.cfg a) :=
  fun y hy => ⟨by rw [setAt_filled, if_neg hy], rrAt_filled_other hs a hy, lruAt_filled_other s a hy⟩

/-- A READB or FILL changes the set of its address alone. -/
theorem exec_otherSetsSame {s t : State} {i : Instr} {a : Addr} (hs : s.Shaped) (hi : i = .readb a ∨ i = .fill a)
    (h : exec i s = .next t) : OtherSetsSame s t (setIndex s.cfg a) := by
  rcases hi with rfl | rfl
  · rcases exec_readb_inv hs h with ⟨w, -, rfl⟩ | ⟨-, rfl⟩
    · exact otherSetsSame_touch s _ w
    · exact otherSetsSame_filled hs a
  · rw [exec_fill_inv hs h]; exact otherSetsSame_filled hs a

/-- Two states alike in the set of `a` answer READB of `a` alike and are left alike in that set. -/
theorem exec_readb_sameSet {s u t v : State} {a : Addr} (hs : s.Shaped) (hu : u.Shaped)
    (hsame : SameSet s u (setIndex s.cfg a)) (h : exec (.readb a) s = .next t) (h' : exec (.readb a) u = .next v) :
    v.response = t.response ∧ SameSet t v (setIndex s.cfg a) := by
  cases hl : lookup s a with
  | some w =>
    cases (execReadb_hit hs.phase hl).symm.trans h
    cases (execReadb_hit hu.phase (hsame.lookup.trans hl)).symm.trans h'
    rw [hsame.cfg, hsame.byteAt]
    exact ⟨rfl, (hsame.of_touch hs hu (setIndex_lt s.cfg a)).withResponse _ _⟩
  | none =>
    cases (exec_readb_miss hs ((hs.lookup_none a).1 hl)).symm.trans h
    cases (exec_readb_miss hu ((hu.lookup_none a).1 (hsame.lookup.trans hl))).symm.trans h'
    rw [hsame.fillWay hs hu, hsame.bs]
    exact ⟨rfl, (hsame.of_fill hs hu).withResponse _ _⟩

/-- So with FILL of `a`. -/
theorem exec_fill_sameSet {s u t v : State} {a : Addr} (hs : s.Shaped) (hu : u.Shaped)
    (hsame : SameSet s u (setIndex s.cfg a)) (h : exec (.fill a) s = .next t) (h' : exec (.fill a) u = .next v) :
    v.response = t.response ∧ SameSet t v (setIndex s.cfg a) := by
  rw [exec_fill_inv hs h, exec_fill_inv hu h', hsame.fillWay hs hu, hsame.lookup]
  exact ⟨rfl, (hsame.of_fill hs hu).withResponse _ _⟩

/-- Settles O36: what `Lookup`, the selector, the fill and the touch read and write of lines and replacement state is of
one set. -/
theorem setsAreIndependent : Obligations.SetsAreIndependent := by
  intro s u t v a hs hu hcfg hbs hlines hrr hlru i hi h h'
  have hi : i = .readb a ∨ i = .fill a := by simpa [or_comm] using hi
  have hsame : SameSet s u (setIndex s.cfg a) := ⟨hcfg, hbs, hlines, hrr, hlru⟩
  have hothers := exec_otherSetsSame hs hi h
  obtain ⟨hresponse, hsame'⟩ : v.response = t.response ∧ SameSet t v (setIndex s.cfg a) := by
    rcases hi with rfl | rfl
    · exact exec_readb_sameSet hs hu hsame h h'
    · exact exec_fill_sameSet hs hu hsame h h'
  exact ⟨hresponse, hsame'.lines, hsame'.rr, hsame'.lru, hothers⟩

end Sys2Proof.Machine
end

section
/-! What a fill does to residence (43_replacement.md R118, R119): whatever way a miss loads, its block comes and the block
that way held goes. -/
namespace Sys2Proof.Machine

/-! ## Loading one line -/

/-- `t` has the configuration of `s`, and its lines but for way `w` of the set of `a`, which holds the block of `a`. -/
structure LineLoaded (s t : State) (a : Addr) (w : Nat) : Prop where
  cfg : t.cfg = s.cfg
  tag : (lineAt t (setIndex s.cfg a) w).tag = tagOf s.cfg a
  valid : (lineAt t (setIndex s.cfg a) w).valid = true
  others : ∀ y v, (y, v) ≠ (setIndex s.cfg a, w) → lineAt t y v = lineAt s y v

theorem LoadedInto.lineLoaded {s t : State} {a : Addr} {w : Nat} (h : LoadedInto s t a w) : LineLoaded s t a w where
  cfg := h.surroundings.1
  tag := h.holds.1
  valid := h.holds.2.1
  others := h.others.2.2

section Loaded
variable {s t : State} {a : Addr} {w : Nat} (h : LineLoaded s t a w)
include h

/-- The block loaded is resident, and so at each of its addresses. -/
theorem LineLoaded.resident (hw : w < s.cfg.associativity) : Resident t a :=
  ⟨w, by rwa [h.cfg], by rw [h.cfg]; exact ⟨h.valid, h.tag⟩⟩

/-- A resident block whose line is not the one loaded stays. -/
theorem LineLoaded.resident_other {b : Addr} {v : Nat} (hv : v < s.cfg.associativity)
    (hmatch : (lineAt s (setIndex s.cfg b) v).valid = true ∧ (lineAt s (setIndex s.cfg b) v).tag = tagOf s.cfg b)
    (hother : (setIndex s.cfg b, v) ≠ (setIndex s.cfg a, w)) : Resident t b :=
  ⟨v, by rwa [h.cfg], by rwa [h.cfg, h.others _ _ hother]⟩

/-- A resident block whose tag and set are not those of the line overwritten stays. -/
theorem LineLoaded.resident_of_other_block {b : Addr} (hres : Resident s b)
    (hother : ¬ (setIndex s.cfg b = setIndex s.cfg a ∧ tagOf s.cfg b = (lineAt s (setIndex s.cfg a) w).tag)) :
    Resident t b := by
  obtain ⟨v, hv, hvalid, htag⟩ := hres
  refine h.resident_other hv ⟨hvalid, htag⟩ fun hline => ?_
  obtain ⟨hset, rfl⟩ := Prod.mk.inj hline
  exact hother ⟨hset, by rw [← htag, hset]⟩

/-- When the line overwritten was invalid every resident block stays. -/
theorem LineLoaded.resident_of_invalid (hinvalid : (lineAt s (setIndex s.cfg a) w).valid = false) {b : Addr}
    (hres : Resident s b) : Resident t b := by
  obtain ⟨v, hv, hvalid, htag⟩ := hres
  refine h.resident_other hv ⟨hvalid, htag⟩ fun hline => ?_
  obtain ⟨hset, rfl⟩ := Prod.mk.inj hline
  rw [hset, hinvalid] at hvalid
  cases hvalid

/-- Under UNIQ the block the line held is gone: no other way of the set held it, and the line now holds another. -/
theorem LineLoaded.not_resident_overwritten (huniq : s.Uniq) (hmiss : ¬ Resident s a) (hw : w < s.cfg.associativity)
    (hvalid : (lineAt s (setIndex s.cfg a) w).valid = true) {b : Addr} (hset : setIndex s.cfg b = setIndex s.cfg a)
    (htag : tagOf s.cfg b = (lineAt s (setIndex s.cfg a) w).tag) : ¬ Resident t b := by
  rintro ⟨v, hv, hv_valid, hv_tag⟩
  rw [h.cfg] at hv hv_valid hv_tag
  rw [hset] at hv_valid hv_tag
  by_cases hvw : v = w
  · subst hvw
    exact hmiss ⟨v, hw, hvalid, by rw [← htag, ← hv_tag, h.tag]⟩
  · have hsame := h.others (setIndex s.cfg a) v fun e => hvw (Prod.mk.inj e).2
    rw [hsame] at hv_valid hv_tag
    exact huniq _ (setIndex_lt s.cfg a) v hv w hw hvw ⟨hv_valid, hvalid, hv_tag.trans htag⟩

/-- Loading a block that is not resident keeps UNIQ. -/
theorem LineLoaded.uniq (huniq : s.Uniq) (hmiss : ¬ Resident s a) : t.Uniq := by
  have hnew : ∀ v < s.cfg.associativity, v ≠ w → (lineAt t (setIndex s.cfg a) v).valid = true →
      (lineAt t (setIndex s.cfg a) v).tag ≠ tagOf s.cfg a := by
    intro v hv hvw hvalid htag
    rw [h.others _ v fun e => hvw (Prod.mk.inj e).2] at hvalid htag
    exact hmiss ⟨v, hv, hvalid, htag⟩
  rintro x hx w₁ hw₁ w₂ hw₂ hne ⟨hv₁, hv₂, htag⟩
  rw [h.cfg] at hx hw₁ hw₂
  by_cases h₁ : (x, w₁) = (setIndex s.cfg a, w)
  · obtain ⟨rfl, rfl⟩ := Prod.mk.inj h₁
    exact hnew w₂ hw₂ hne.symm hv₂ (htag.symm.trans h.tag)
  by_cases h₂ : (x, w₂) = (setIndex s.cfg a, w)
  · obtain ⟨rfl, rfl⟩ := Prod.mk.inj h₂
    exact hnew w₁ hw₁ hne hv₁ (htag.trans h.tag)
  rw [h.others x w₁ h₁] at hv₁ htag
  rw [h.others x w₂ h₂] at hv₂ htag
  exact huniq x hx w₁ hw₁ w₂ hw₂ hne ⟨hv₁, hv₂, htag⟩

end Loaded

/-! ## The way the configured policy picks -/

/-- Settles O47: the way filled is the victim; in a full set it held a block, in another it held none. -/
theorem conflictMiss : Obligations.ConflictMiss := by
  intro s t a i hs huniq hi hmiss h
  obtain ⟨r, rfl, -⟩ := exec_miss_inv hs hi.symm hmiss h
  have hloaded := (filled_loadedInto hs a r).lineLoaded
  have hvictim := fillWay_miss hs ((hs.lookup_none a).2 hmiss)
  have hway := fillWay_lt hs a
  refine ⟨hloaded.resident hway, fun hfull => ⟨_, hvictim, fun b hres => ⟨fun hstays hgone => ?_, ?_⟩⟩, fun hfull b hres => ?_⟩
  · exact hloaded.not_resident_overwritten huniq hmiss hway (hfull _ hway) hgone.1 hgone.2 hstays
  · exact hloaded.resident_of_other_block hres
  · exact hloaded.resident_of_invalid (hvictim.invalid hfull).2.1 hres

/-! ## Any way -/

/-- `Fill`'s last steps into any way of the set load the block there. -/
theorem loadWay_loadedInto {s : State} (hs : s.Shaped) (a : Addr) {w : Nat} (hw : w < s.cfg.associativity) :
    ∃ t, loadWay s a w = some t ∧ LoadedInto s t a w := by
  have hline : lineAt (withLine s (setIndex s.cfg a) w (loadedLine (tagOf s.cfg a) (blockOf s a))) (setIndex s.cfg a) w =
      loadedLine (tagOf s.cfg a) (blockOf s a) :=
    lineAt_withLine_same _ _ _ _ (by rwa [hs.length_setAt (setIndex_lt s.cfg a)])
  have htouched := touch_touchedOnly
    (withLine s (setIndex s.cfg a) w (loadedLine (tagOf s.cfg a) (blockOf s a))) (setIndex s.cfg a) w
  refine ⟨_, loadWay_eq hs.legal a w, ⟨?holds, ?others, ?surroundings, ?touched⟩⟩
  case holds =>
    simp only [HoldsBlock, lineAt_touch, hline]
    exact ⟨rfl, rfl, rfl, length_blockOf s a, fun k hk => blockOf_getD s a hk⟩
  case others =>
    refine ⟨by simp, fun y => ?_, fun y v hother => ?_⟩
    · rw [setAt_touch, length_setAt_withLine]
    · rw [lineAt_touch, lineAt_withLine_other _ _ _ _ _ _ hother]
  case surroundings => simp [SameSurroundings]
  case touched => simpa [TouchedOnly] using htouched

/-- Settles O48: whichever way is loaded, what follows for residence and UNIQ follows from that one line. -/
theorem fillLawsHoldForAnyPolicy : Obligations.FillLawsHoldForAnyPolicy := by
  intro s a w hs huniq hmiss hw hcontract
  obtain ⟨t, hload, hinto⟩ := loadWay_loadedInto hs a hw
  have hloaded := hinto.lineLoaded
  refine ⟨t, hload, hloaded.uniq huniq hmiss, hinto, fun b hstart hend => ?_, fun b hres hother => ?_⟩
  · rw [← hloaded.cfg] at hstart hend
    exact (resident_in_block hstart hend).2 (hloaded.resident hw)
  · rcases hcontract with hinvalid | hfull
    · exact hloaded.resident_of_invalid hinvalid hres
    · exact hloaded.resident_of_other_block hres fun hsame => hother ⟨hsame.1, hfull, hsame.2⟩

end Sys2Proof.Machine
end

section
/-! FIFO evicts the oldest (43_replacement.md R114): the pointer agrees with the order of installation an observer keeps. -/
namespace Sys2Proof.Machine

/-! ## Lists of ways -/

theorem filter_lt_range {k n : Nat} (h : k ≤ n) : (List.range n).filter (fun w => decide (w < k)) = List.range k := by
  obtain ⟨d, rfl⟩ := Nat.exists_eq_add_of_le h
  have hbelow : (List.range k).filter (fun w => decide (w < k)) = List.range k :=
    List.filter_eq_self.2 fun w hw => decide_eq_true (List.mem_range.1 hw)
  have habove : ((List.range d).map (k + ·)).filter (fun w => decide (w < k)) = [] :=
    List.filter_eq_nil_iff.2 fun w hw => by
      obtain ⟨j, -, rfl⟩ := List.mem_map.1 hw
      simp
  rw [List.range_add, List.filter_append, hbelow, habove, List.append_nil]

/-- Taking the first way of a rotation and putting it last rotates by one more. -/
theorem rotate_range_evict {n r : Nat} (hr : r < n) :
    ((List.range n).rotate r).filter (· ≠ r) ++ [r] = (List.range n).rotate ((r + 1) % n) := by
  obtain ⟨l, hl⟩ : ∃ l, (List.range n).rotate r = r :: l := by
    have hlen : r < (List.range n).length := by rwa [List.length_range]
    rw [List.rotate_eq_drop_append_take hlen.le, List.drop_eq_getElem_cons hlen, List.getElem_range, List.cons_append]
    exact ⟨_, rfl⟩
  have hnodup : (r :: l).Nodup := hl ▸ List.nodup_rotate.2 List.nodup_range
  have hfilter : (r :: l).filter (· ≠ r) = l := by
    rw [List.filter_cons_of_neg (by simp), List.filter_eq_self]
    intro v hv
    exact decide_eq_true fun hvr => (List.nodup_cons.1 hnodup).1 (hvr ▸ hv)
  have hrotate : (List.range n).rotate ((r + 1) % n) = (r :: l).rotate 1 := by
    rw [← hl, List.rotate_rotate, ← List.rotate_mod (List.range n) (r + 1), List.length_range]
  rw [hl, hfilter, hrotate, List.rotate_cons_succ, List.rotate_zero]

/-! ## The valid ways of a set -/

/-- The valid ways of set `x`, in way order. -/
def validWays (s : State) (x : Nat) : List Nat := (List.range s.cfg.associativity).filter fun w => (lineAt s x w).valid

theorem validWays_congr {s t : State} {x : Nat} (hc : t.cfg = s.cfg)
    (hv : ∀ w < s.cfg.associativity, (lineAt t x w).valid = (lineAt s x w).valid) : validWays t x = validWays s x := by
  rw [validWays, validWays, hc]
  exact List.filter_congr fun w hw => hv w (List.mem_range.1 hw)

theorem validWays_eq_range {s : State} {x k : Nat} (hk : k ≤ s.cfg.associativity)
    (hvalid : ∀ w < s.cfg.associativity, (lineAt s x w).valid = decide (w < k)) : validWays s x = List.range k := by
  rw [validWays, List.filter_congr fun w hw => hvalid w (List.mem_range.1 hw), filter_lt_range hk]

theorem validWays_of_setFull {s : State} {x : Nat} (hfull : SetFull s x) : validWays s x = List.range s.cfg.associativity :=
  List.filter_eq_self.2 fun w hw => hfull w (List.mem_range.1 hw)

theorem validWays_of_linesReset {s : State} (h : s.LinesReset) {x : Nat} (hx : x < s.cfg.numSets) : validWays s x = [] :=
  List.filter_eq_nil_iff.2 fun w hw => by rw [h x hx w (List.mem_range.1 hw)]; exact Bool.false_ne_true

/-! ## The order of installation -/

/-- Way `w` of set `x` newly installed: it is the last of the set's order. -/
def WayOrders.installed (g : WayOrders) (x w : Nat) : WayOrders :=
  fun y => if y = x then (g y).filter (· ≠ w) ++ [w] else g y

theorem WayOrders.installed_same (g : WayOrders) (x w : Nat) : g.installed x w x = (g x).filter (· ≠ w) ++ [w] := if_pos rfl

theorem WayOrders.installed_other (g : WayOrders) {x y : Nat} (w : Nat) (h : y ≠ x) : g.installed x w y = g y := if_neg h

theorem addrField_of_readb_or_fill {i : Instr} {a : Addr} (hi : i = .readb a ∨ i = .fill a) : i.addrField = a := by
  rcases hi with rfl | rfl <;> rfl

/-- What the observer notes of an answered request that is not RESET. -/
theorem afterInstall_of_response (g : WayOrders) {i : Instr} {t : State} {r : Response} (hi : i ≠ .reset)
    (hr : t.response = some r) :
    g.afterInstall i t = if r.filled && !r.hit then g.installed (setIndex t.cfg i.addrField) r.way else g := by
  unfold WayOrders.afterInstall
  cases i with
  | reset => exact absurd rfl hi
  | loadb | readb | ishit | lookup | fill => simp only [hr]; rfl

/-- The order of set `x` alone agrees with its pointer. -/
abbrev FifoOrderedAt (s : State) (order : List Nat) (x : Nat) : Prop :=
  order = (validWays s x).rotate (rrAt s x) ∧ (¬ SetFull s x → rrAt s x = 0)

theorem fifoOrdered_iff {s : State} {g : WayOrders} :
    s.FifoOrdered g ↔ ∀ x < s.cfg.numSets, FifoOrderedAt s (g x) x := Iff.rfl

theorem State.LinesReset.fifoOrdered {s : State} (h : s.LinesReset) (hrr : ∀ x, rrAt s x = 0) :
    s.FifoOrdered fun _ => [] := by
  refine fifoOrdered_iff.2 fun x hx => ⟨?_, fun _ => hrr x⟩
  rw [validWays_of_linesReset h hx, List.rotate_nil]

/-- The order of a set is read off the configuration, its valid bits and its pointer. -/
theorem FifoOrderedAt.congr {s t : State} {order : List Nat} {x : Nat} (h : FifoOrderedAt s order x) (hc : t.cfg = s.cfg)
    (hv : ∀ w < s.cfg.associativity, (lineAt t x w).valid = (lineAt s x w).valid) (hrr : rrAt t x = rrAt s x) :
    FifoOrderedAt t order x := by
  obtain ⟨horder, hzero⟩ := h
  rw [FifoOrderedAt, validWays_congr hc hv, hrr]
  refine ⟨horder, fun hfull => hzero fun hfull' => hfull fun w hw => ?_⟩
  rw [hc] at hw
  rw [hv w hw]; exact hfull' w hw

/-- A miss in a set that is not full: the valid ways grow by the way filled, and the pointer stays 0. -/
theorem fifo_install_free {s : State} (hs : s.Shaped) (hfifo : s.cfg.policy = .fifo) (hprefix : s.WaysPrefix) {a : Addr}
    (hmiss : ¬ Resident s a) (hfull : ¬ SetFull s (setIndex s.cfg a)) :
    validWays (filled s a) (setIndex s.cfg a) =
      (validWays s (setIndex s.cfg a)).filter (· ≠ fillWay s a) ++ [fillWay s a] ∧
    rrAt (filled s a) (setIndex s.cfg a) = rrAt s (setIndex s.cfg a) := by
  have hx := setIndex_lt s.cfg a
  obtain ⟨k, hk, hvalid⟩ := hprefix _ hx
  obtain ⟨hlt, hinvalid, -⟩ := (fillWay_miss hs ((hs.lookup_none a).2 hmiss)).invalid hfull
  have hway : fillWay s a = k := by
    rw [hvalid _ hlt, decide_eq_false_iff_not] at hinvalid
    exact (fillWay_lt_or_eq hs hvalid).resolve_left hinvalid
  have hvalid' : ∀ w < (filled s a).cfg.associativity,
      (lineAt (filled s a) (setIndex s.cfg a) w).valid = decide (w < k + 1) := by
    intro w hw
    rw [filled_cfg] at hw
    rw [valid_filled hs, hvalid w hw, hway, Bool.eq_iff_iff]
    simp only [true_and, Bool.or_eq_true, decide_eq_true_iff]
    omega
  have hfilter : (List.range k).filter (· ≠ k) = List.range k :=
    List.filter_eq_self.2 fun w hw => decide_eq_true (List.mem_range.1 hw).ne
  refine ⟨?_, ?_⟩
  · rw [validWays_eq_range (by rw [filled_cfg]; omega) hvalid', validWays_eq_range hk hvalid, hway, hfilter,
      List.range_succ]
  · rw [rrAt_filled hs hfifo a hx, if_neg fun hevicts => hfull hevicts.2.2]

/-- A miss in a full set: it stays full, and the pointer leaves the way it named, the one filled, as the last. -/
theorem fifo_install_evict {s : State} (hs : s.Shaped) (hfifo : s.cfg.policy = .fifo) {a : Addr}
    (hmiss : ¬ Resident s a) (hfull : SetFull s (setIndex s.cfg a)) :
    SetFull (filled s a) (setIndex s.cfg a) ∧ fillWay s a = rrAt s (setIndex s.cfg a) ∧
    rrAt (filled s a) (setIndex s.cfg a) = (rrAt s (setIndex s.cfg a) + 1) % s.cfg.associativity := by
  refine ⟨fun w hw => ?_, (fillWay_miss hs ((hs.lookup_none a).2 hmiss)).eq_rrAt hfull hfifo, ?_⟩
  · rw [filled_cfg] at hw
    rw [valid_filled hs, hfull w hw, Bool.or_true]
  · rw [rrAt_filled hs hfifo a (setIndex_lt s.cfg a), if_pos ⟨rfl, hmiss, hfull⟩]

/-- A fill that misses installs its way as the newest of its set. -/
theorem fifoOrdered_filled_miss {s : State} {g : WayOrders} (hs : s.Shaped) (hfifo : s.cfg.policy = .fifo)
    (hprefix : s.WaysPrefix) (hg : s.FifoOrdered g) {a : Addr} (hmiss : ¬ Resident s a) :
    (filled s a).FifoOrdered (g.installed (setIndex s.cfg a) (fillWay s a)) := by
  refine fifoOrdered_iff.2 fun x hx => ?_
  rw [filled_cfg] at hx
  have hat := fifoOrdered_iff.1 hg x hx
  by_cases hset : x = setIndex s.cfg a
  · subst hset
    rw [WayOrders.installed_same]
    obtain ⟨horder, hzero⟩ := hat
    by_cases hfull : SetFull s (setIndex s.cfg a)
    · obtain ⟨hfull', hway, hrr⟩ := fifo_install_evict hs hfifo hmiss hfull
      refine ⟨?_, fun hnot => absurd hfull' hnot⟩
      rw [horder, validWays_of_setFull hfull, validWays_of_setFull hfull', filled_cfg, hway, hrr]
      exact rotate_range_evict (hs.rrAt_lt hfifo hx)
    · obtain ⟨hways, hrr⟩ := fifo_install_free hs hfifo hprefix hmiss hfull
      rw [FifoOrderedAt, horder, hways, hrr, hzero hfull, List.rotate_zero, List.rotate_zero]
      exact ⟨rfl, fun _ => rfl⟩
  · rw [WayOrders.installed_other g _ hset]
    refine hat.congr (filled_cfg s a) (fun w _ => ?_) (rrAt_filled_other hs a hset)
    rw [valid_filled hs, decide_eq_false fun hline => hset hline.1, Bool.false_or]

/-- A reload installs nothing: no valid bit and no pointer changes. -/
theorem fifoOrdered_filled_hit {s : State} {g : WayOrders} (hs : s.Shaped) (hg : s.FifoOrdered g) {a : Addr} {w : Nat}
    (hl : lookup s a = some w) : (filled s a).FifoOrdered g := by
  obtain ⟨-, ⟨hvalid, -⟩, -⟩ := (hs.lookup_some a w).1 hl
  refine fifoOrdered_iff.2 fun x hx => ?_
  rw [filled_cfg] at hx
  refine (fifoOrdered_iff.1 hg x hx).congr (filled_cfg s a) (fun v _ => ?_) (rrAt_of_rr (rr_filled_hit hl) x)
  rw [valid_filled hs, fillWay_hit hl]
  by_cases hline : x = setIndex s.cfg a ∧ v = w
  · rw [hline.1, hline.2, hvalid, Bool.or_true]
  · rw [decide_eq_false hline, Bool.false_or]

/-- Every request keeps the pointer in agreement with the order of installation. -/
theorem State.FifoOrdered.of_exec {s t : State} {i : Instr} {g : WayOrders} (hs : s.Shaped) (hfifo : s.cfg.policy = .fifo)
    (hprefix : s.WaysPrefix) (hg : s.FifoOrdered g) (h : exec i s = .next t) : t.FifoOrdered (g.afterInstall i t) := by
  obtain rfl | hi := eq_or_ne i .reset
  · rw [exec_reset_inv hs.phase hs.legal h]
    exact (linesReset_resetAll s).fifoOrdered (rrAt_resetAll s)
  rcases (exec_lines_inv hs h).resolve_left hi with ⟨hlines, hcfg, r, hr, hfilled⟩ | ⟨a, r, hreq, rfl, hfilled, hway, hhit⟩
  · rw [afterInstall_of_response g hi hr, hfilled]
    refine fifoOrdered_iff.2 fun x hx => ?_
    rw [hcfg] at hx
    exact (fifoOrdered_iff.1 hg x hx).congr hcfg (fun w _ => by rw [lineAt_of_lines hlines])
      (rrAt_of_rr (exec_rr_of_not_filled hs hi h hr hfilled) x)
  · rw [afterInstall_of_response g hi rfl, hfilled, hhit, hway, addrField_of_readb_or_fill hreq, withResponse_cfg, filled_cfg]
    cases hl : lookup s a with
    | some w => exact fifoOrdered_filled_hit hs hg hl
    | none => exact fifoOrdered_filled_miss hs hfifo hprefix hg ((hs.lookup_none a).1 hl)

/-- Settles O45: the order holds at the start, where nothing is installed; every request keeps it; and in a full set the
rotation begins at the pointer. -/
theorem fifoEvictsTheOldest : Obligations.FifoEvictsTheOldest := by
  refine ⟨fun c hc _ => ?start, fun s t i g hinv hp hfifo hg h => ?request, fun s g x hs hfifo hg hx hfull => ?oldest⟩
  case start =>
    refine (linesReset_start hc).fifoOrdered fun x => ?_
    rw [← resetAll_start hc, rrAt_resetAll]
  case request =>
    obtain ⟨hs, hl⟩ := hinv.ready hp
    exact hg.of_exec hs hfifo hl.waysPrefix h
  case oldest =>
    have hlt := hs.rrAt_lt hfifo hx
    have horder := (fifoOrdered_iff.1 hg x hx).1
    rw [horder, validWays_of_setFull hfull, List.head?_rotate (by rwa [List.length_range]), List.getElem?_range hlt]

end Sys2Proof.Machine
end

section
/-! LRU evicts the least recently used (43_replacement.md R115, R116): the recency list agrees with the order of use an
observer keeps. -/
namespace Sys2Proof.Machine

/-! ## The order of use -/

/-- Moving a way to the front of the used ways, with the unused ones behind, is moving it to the front of the used
ways. -/
theorem movedToFront_append_unused (n w : Nat) (used : List Nat) :
    movedToFront w (used ++ (List.range n).filter (· ∉ used)) =
      movedToFront w used ++ (List.range n).filter (· ∉ movedToFront w used) := by
  have hunused : ((List.range n).filter (· ∉ used)).filter (· ≠ w) =
      (List.range n).filter (· ∉ movedToFront w used) := by
    rw [List.filter_filter]
    refine List.filter_congr fun v _ => ?_
    by_cases hv : v = w <;> simp [movedToFront, hv]
  rw [movedToFront, List.filter_append, hunused]
  rfl

/-- Way `w` of set `x` newly used: it is the first of the set's order. -/
def WayOrders.used (g : WayOrders) (x w : Nat) : WayOrders := fun y => if y = x then movedToFront w (g y) else g y

theorem WayOrders.used_same (g : WayOrders) (x w : Nat) : g.used x w x = movedToFront w (g x) := if_pos rfl

theorem WayOrders.used_other (g : WayOrders) {x y : Nat} (w : Nat) (h : y ≠ x) : g.used x w y = g y := if_neg h

/-- What the observer notes of a READB or FILL. -/
theorem afterUse_of_readb_or_fill (g : WayOrders) {i : Instr} {a : Addr} {t : State} {r : Response}
    (hi : i = .readb a ∨ i = .fill a) (hr : t.response = some r) :
    g.afterUse i t = g.used (setIndex t.cfg a) r.way := by
  rcases hi with rfl | rfl <;> simp only [WayOrders.afterUse, hr] <;> rfl

/-- The recency lists after a touch. -/
theorem lruAt_of_touchedOnly {s t : State} (hs : s.Shaped) (hlru : s.cfg.policy = .lru) {x w : Nat} (hx : x < s.cfg.numSets)
    (htouched : TouchedOnly s t x w) (y : Nat) :
    lruAt t y = if y = x then movedToFront w (lruAt s x) else lruAt s y := by
  rw [TouchedOnly, hlru] at htouched
  change t.lru = _ at htouched
  rw [lruAt, htouched, List.getD_eq_getElem?_getD]
  split
  · next hyx =>
    subst hyx
    rw [List.getElem?_set_self (by rwa [(hs.lruLru hlru).1])]
    rfl
  · next hyx =>
    rw [List.getElem?_set_ne (Ne.symm hyx), ← List.getD_eq_getElem?_getD]
    rfl

/-- A line valid after a READB or FILL is the way answered, or was valid before. -/
theorem valid_before_or_answered {s t : State} {i : Instr} {a : Addr} {r : Response} (hs : s.Shaped)
    (hi : i = .readb a ∨ i = .fill a) (h : exec i s = .next t) (hr : t.response = some r) {x w : Nat}
    (hvalid : (lineAt t x w).valid = true) : (x = setIndex s.cfg a ∧ w = r.way) ∨ (lineAt s x w).valid = true := by
  rcases exec_lines_inv hs h with rfl | ⟨hlines, -⟩ | ⟨b, r', hreq, rfl, -, hway, -⟩
  · rcases hi with hi | hi <;> cases hi
  · rw [lineAt_of_lines hlines] at hvalid
    exact .inr hvalid
  · obtain rfl := readb_or_fill_addr_inj hi hreq
    cases hr
    rw [lineAt_withResponse, valid_filled hs, Bool.or_eq_true, decide_eq_true_iff] at hvalid
    rw [hway]
    exact hvalid

/-- The order of use is read off configuration, recency lists and lines. -/
theorem State.LruOrdered.congr {s t : State} {g : WayOrders} (hg : s.LruOrdered g) (hc : t.cfg = s.cfg)
    (hlru : t.lru = s.lru) (hl : t.lines = s.lines) : t.LruOrdered g := by
  intro x hx
  have hlist : lruAt t x = lruAt s x := by rw [lruAt, lruAt, hlru]
  rw [hlist, hc]
  simp only [lineAt_of_lines hl]
  exact hg x (hc ▸ hx)

theorem State.LinesReset.lruOrdered {s : State} (h : s.LinesReset)
    (hlru : ∀ x < s.cfg.numSets, lruAt s x = List.range s.cfg.associativity) : s.LruOrdered fun _ => [] := by
  refine fun x hx => ⟨?_, fun w hw hvalid => ?_⟩
  · rw [hlru x hx, List.nil_append]
    exact (List.filter_eq_self.2 fun w _ => decide_eq_true List.not_mem_nil).symm
  · rw [h x hx w hw] at hvalid
    cases hvalid

theorem lruAt_resetAll {s : State} (hlru : s.cfg.policy = .lru) {x : Nat} (hx : x < s.cfg.numSets) :
    lruAt (resetAll s) x = List.range s.cfg.associativity := by
  rw [lruAt, resetAll_lru, resetLru_lru hlru, List.getD_replicate _ hx]

/-- A READB or FILL keeps the recency lists in agreement with the order of use. -/
theorem State.LruOrdered.of_use {s t : State} {i : Instr} {a : Addr} {r : Response} {g : WayOrders} (hs : s.Shaped)
    (hlru : s.cfg.policy = .lru) (hg : s.LruOrdered g) (hi : i = .readb a ∨ i = .fill a) (h : exec i s = .next t)
    (hr : t.response = some r) : t.LruOrdered (g.afterUse i t) := by
  have hcfg := exec_cfg hs h
  have hlist := lruAt_of_touchedOnly hs hlru (setIndex_lt s.cfg a) (touchedOnly_of_readb_or_fill hs hi h hr)
  rw [afterUse_of_readb_or_fill g hi hr]
  intro x hx
  rw [hcfg] at hx ⊢
  obtain ⟨horder, hused⟩ := hg x hx
  rw [hlist]
  by_cases hset : x = setIndex s.cfg a
  · subst hset
    rw [if_pos rfl, WayOrders.used_same, horder]
    refine ⟨movedToFront_append_unused _ _ _, fun w hw hvalid => ?_⟩
    rcases valid_before_or_answered hs hi h hr hvalid with ⟨-, rfl⟩ | hbefore
    · exact List.mem_cons_self
    · by_cases hw' : w = r.way
      · rw [hw']; exact List.mem_cons_self
      · exact List.mem_cons_of_mem _ (List.mem_filter.2 ⟨hused w hw hbefore, decide_eq_true hw'⟩)
  · rw [if_neg hset, WayOrders.used_other g _ hset]
    refine ⟨horder, fun w hw hvalid => hused w hw ?_⟩
    exact (valid_before_or_answered hs hi h hr hvalid).resolve_left fun hline => hset hline.1

/-- Every request keeps it. -/
theorem State.LruOrdered.of_exec {s t : State} {i : Instr} {g : WayOrders} (hs : s.Shaped) (hlru : s.cfg.policy = .lru)
    (hg : s.LruOrdered g) (h : exec i s = .next t) : t.LruOrdered (g.afterUse i t) := by
  have hcfg := exec_cfg hs h
  obtain ⟨r, hr⟩ := Option.isSome_iff_exists.1 (exec_answered h).2
  cases i with
  | reset =>
    rw [exec_reset_inv hs.phase hs.legal h]
    exact (linesReset_resetAll s).lruOrdered fun x hx => lruAt_resetAll hlru hx
  | loadb a bytes => exact hg.congr hcfg (exec_loadb_lru hs.phase h) (exec_loadb_lines hs h)
  | readb a => exact hg.of_use hs hlru (.inl rfl) h hr
  | ishit a => rw [exec_ishit_inv hs.phase h]; exact hg.congr rfl rfl rfl
  | lookup a => rw [exec_lookup_inv hs.phase h]; exact hg.congr rfl rfl rfl
  | fill a => exact hg.of_use hs hlru (.inr rfl) h hr

/-- In a full set every way has been used, so nothing of the reset value is left in its list. -/
theorem State.LruOrdered.of_setFull {s : State} {g : WayOrders} (hg : s.LruOrdered g) {x : Nat} (hx : x < s.cfg.numSets)
    (hfull : SetFull s x) : lruAt s x = g x := by
  obtain ⟨horder, hused⟩ := hg x hx
  have hnone : (List.range s.cfg.associativity).filter (fun w => w ∉ g x) = [] :=
    List.filter_eq_nil_iff.2 fun w hw => by
      simpa using hused w (List.mem_range.1 hw) (hfull w (List.mem_range.1 hw))
  rw [horder, hnone, List.append_nil]

/-- The victim of a full set under LRU is the last of its list. -/
theorem isVictim_iff_getLast {s : State} {x w : Nat} (hlru : s.cfg.policy = .lru) (hfull : SetFull s x) :
    IsVictim s x w ↔ (lruAt s x).getLast? = some w := by
  refine ⟨fun hw => ?_, fun hlast => .inr (.inr ⟨hfull, hlru, hlast⟩)⟩
  rcases hw with ⟨hlt, hinvalid, -⟩ | ⟨-, hfifo, -⟩ | ⟨-, -, hlast⟩
  · rw [hfull w hlt] at hinvalid; cases hinvalid
  · rw [hlru] at hfifo; cases hfifo
  · exact hlast

/-- Settles O46: the order holds at the start, where nothing has been used; every request keeps it; and in a full set the
list is the order of use. -/
theorem lruEvictsTheLeastRecentlyUsed : Obligations.LruEvictsTheLeastRecentlyUsed := by
  refine ⟨fun c hc hlru => ?start, fun s t i g hinv hp hlru hg h => ?request, fun s g x w _ hlru hg hx hfull => ?oldest⟩
  case start =>
    have hcfg : (State.start c).cfg = c := by rw [start_of_legal hc]; rfl
    refine (linesReset_start hc).lruOrdered fun x hx => ?_
    rw [← lruAt_resetAll (by rwa [hcfg]) hx, resetAll_start hc]
  case request => exact hg.of_exec (hinv.ready hp).1 hlru h
  case oldest =>
    have hlist := hg.of_setFull hx hfull
    exact ⟨hlist, hlist ▸ isVictim_iff_getLast hlru hfull⟩

end Sys2Proof.Machine
end

section
/-! What a line holds of the store (10_state.md R29; 45_host_api.md R134): the store as it was at the line's last fill, and
the present store when no LOADB writes a resident block. -/
namespace Sys2Proof.Machine

/-! ## Copies -/

theorem lineIsCopyOf_congr {s t : State} (hc : t.cfg = s.cfg) {x w : Nat} (hline : lineAt t x w = lineAt s x w)
    {m : Memory} (h : LineIsCopyOf s x w m) : LineIsCopyOf t x w m := by
  rw [LineIsCopyOf, hc, hline]
  exact h

/-- The byte a hit selects in a copy is the copied store's byte at the address. -/
theorem byteAt_of_lineIsCopyOf {s : State} {a : Addr} {w : Nat} {m : Memory} (hw : FirstMatch s a w)
    (hcopy : LineIsCopyOf s (setIndex s.cfg a) w m) : byteAt s a w = m.read a.toNat := by
  have hbyte := hcopy (offsetOf s.cfg a) (offsetOf_lt s.cfg a)
  rwa [hw.2.1.2, reassemble_block, blockStart_add_offset] at hbyte

/-- After a fill the way filled holds a copy of the store, and every other line is as before. -/
theorem lineIsCopyOf_filled {s : State} (hs : s.Shaped) (a : Addr) (x w : Nat) :
    (x = setIndex s.cfg a ∧ w = fillWay s a ∧ LineIsCopyOf (filled s a) x w s.bs) ∨
    (¬ (x = setIndex s.cfg a ∧ w = fillWay s a) ∧ lineAt (filled s a) x w = lineAt s x w) := by
  by_cases hline : x = setIndex s.cfg a ∧ w = fillWay s a
  · obtain ⟨rfl, rfl⟩ := hline
    exact .inl ⟨rfl, rfl, filled_isCopy hs a⟩
  · exact .inr ⟨hline, by rw [lineAt_filled hs, if_neg hline]⟩

/-! ## Snapshots -/

/-- A snapshot `m` taken for line `(x, w)`. -/
def Snapshots.taken (g : Snapshots) (x w : Nat) (m : Memory) : Snapshots :=
  fun y v => if y = x ∧ v = w then some m else g y v

/-- What the observer of the store notes of an answered request that is not RESET. -/
theorem snapshotsAfter_of_response (g : Snapshots) {i : Instr} {t : State} {r : Response} (hi : i ≠ .reset)
    (hr : t.response = some r) :
    g.after i t = if r.filled then g.taken (setIndex t.cfg i.addrField) r.way t.bs else g := by
  unfold Snapshots.after
  cases i with
  | reset => exact absurd rfl hi
  | loadb | readb | ishit | lookup | fill => simp only [hr]; rfl

theorem State.LinesReset.snapshotOf {s : State} (h : s.LinesReset) (g : Snapshots) : s.SnapshotOf g := by
  intro x hx w hw hvalid
  rw [h x hx w hw] at hvalid
  cases hvalid

theorem snapshotOf_filled {s : State} {g : Snapshots} (hs : s.Shaped) (hg : s.SnapshotOf g) (a : Addr) :
    (filled s a).SnapshotOf (g.taken (setIndex s.cfg a) (fillWay s a) s.bs) := by
  intro x hx w hw hvalid
  rw [filled_cfg] at hx hw
  rcases lineIsCopyOf_filled hs a x w with ⟨rfl, rfl, hcopy⟩ | ⟨hother, hsame⟩
  · exact ⟨s.bs, if_pos ⟨rfl, rfl⟩, hcopy⟩
  · rw [hsame] at hvalid
    obtain ⟨m, hm, hcopy⟩ := hg x hx w hw hvalid
    exact ⟨m, (if_neg hother).trans hm, lineIsCopyOf_congr (filled_cfg s a) hsame hcopy⟩

/-- Every request keeps SNAPSHOT. -/
theorem State.SnapshotOf.of_exec {s t : State} {i : Instr} {g : Snapshots} (hs : s.Shaped) (hg : s.SnapshotOf g)
    (h : exec i s = .next t) : t.SnapshotOf (g.after i t) := by
  obtain rfl | hi := eq_or_ne i .reset
  · rw [exec_reset_inv hs.phase hs.legal h]
    exact (linesReset_resetAll s).snapshotOf _
  rcases (exec_lines_inv hs h).resolve_left hi with ⟨hlines, hcfg, r, hr, hfilled⟩ | ⟨a, r, hreq, rfl, hfilled, hway, -⟩
  · rw [snapshotsAfter_of_response g hi hr, hfilled]
    intro x hx w hw hvalid
    have hline := lineAt_of_lines hlines x w
    rw [hcfg] at hx hw
    rw [hline] at hvalid
    obtain ⟨m, hm, hcopy⟩ := hg x hx w hw hvalid
    exact ⟨m, hm, lineIsCopyOf_congr hcfg hline hcopy⟩
  · rw [snapshotsAfter_of_response g hi rfl, hfilled, hway, addrField_of_readb_or_fill hreq, withResponse_cfg, filled_cfg,
      withResponse_bs, filled_bs]
    exact snapshotOf_filled hs hg a

/-- Settles O53: SNAPSHOT holds at the start, where no line is valid; every request keeps it; and a hit selects a byte of
the line, which is a copy. -/
theorem linesAreSnapshots : Obligations.LinesAreSnapshots := by
  refine ⟨fun c g hc => (linesReset_start hc).snapshotOf g, fun s t i g hs hg h => hg.of_exec hs h,
    fun s t a g w hs hg hw h => ?_⟩
  obtain ⟨m, hm, hcopy⟩ := hg _ (setIndex_lt s.cfg a) w hw.1 hw.2.1.1
  cases (exec_readb_hit hs hw).symm.trans h
  exact ⟨m, _, hm, rfl, byteAt_of_lineIsCopyOf hw hcopy⟩

/-! ## Coherence -/

theorem State.LinesReset.coherent {s : State} (h : s.LinesReset) : s.Coherent := by
  intro x hx w hw hvalid
  rw [h x hx w hw] at hvalid
  cases hvalid

theorem coherent_filled {s : State} (hs : s.Shaped) (hco : s.Coherent) (a : Addr) : (filled s a).Coherent := by
  intro x hx w hw hvalid
  rw [filled_cfg] at hx hw
  rw [filled_bs]
  rcases lineIsCopyOf_filled hs a x w with ⟨-, -, hcopy⟩ | ⟨-, hsame⟩
  · exact hcopy
  · rw [hsame] at hvalid
    exact lineIsCopyOf_congr (filled_cfg s a) hsame (hco x hx w hw hvalid)

/-- The addresses of the block a valid line names are of a resident block. -/
theorem exists_resident_of_valid {s : State} (hs : s.Shaped) {x w k : Nat} (hx : x < s.cfg.numSets)
    (hw : w < s.cfg.associativity) (hvalid : (lineAt s x w).valid = true) (hk : k < s.cfg.blockSize) :
    ∃ b : Addr, b.toNat = reassemble s.cfg (lineAt s x w).tag x 0 + k ∧ Resident s b := by
  have hsum : reassemble s.cfg (lineAt s x w).tag x 0 + k = addressOf s.cfg (lineAt s x w).tag x k := by
    rw [reassemble_eq_add s.cfg hx (Config.blockSize_pos s.cfg), Nat.add_zero]; rfl
  have htag := hs.tag_lt hx hw
  obtain ⟨htag', hset', -⟩ := fields_addressOf hs.legal htag hx hk
  refine ⟨_, (toNat_addressOf hs.legal htag hx hk).trans hsum.symm, w, hw, ?_⟩
  rw [hset', htag']
  exact ⟨hvalid, rfl⟩

/-- A LOADB that avoids resident blocks leaves coherent lines coherent: it writes no byte they copy. -/
theorem coherent_loadb {s t : State} (hs : s.Shaped) (hco : s.Coherent) {a : Addr} {bytes : List Byte}
    (havoids : AvoidsResident s (.loadb a bytes)) (h : exec (.loadb a bytes) s = .next t) : t.Coherent := by
  cases (exec_loadb_eq hs.phase a bytes).symm.trans h
  intro x hx w hw hvalid k hk
  obtain ⟨b, hb, hres⟩ := exists_resident_of_valid hs hx hw hvalid hk
  have hunwritten : ¬ (a.toNat ≤ b.toNat ∧ b.toNat < a.toNat + (writtenBytes s.cfg a bytes).length) := fun hwritten =>
    havoids b hwritten.1 ((written_address_iff s.cfg a bytes b.toNat).1 hwritten).2.1 hres
  have hread : (s.bs.writeAll a.toNat (writtenBytes s.cfg a bytes)).read b.toNat = s.bs.read b.toNat := by
    rw [Memory.read_writeAll _ hs.store _ _ (writtenBytes_inside s.cfg a bytes), if_neg hunwritten]
  have hcopy := hco x hx w hw hvalid k hk
  rw [← hb, ← hread, hb] at hcopy
  exact hcopy

/-- Every request that avoids resident blocks keeps the lines coherent. -/
theorem State.Coherent.of_exec {s t : State} {i : Instr} (hs : s.Shaped) (hco : s.Coherent) (havoids : AvoidsResident s i)
    (h : exec i s = .next t) : t.Coherent := by
  obtain rfl | hreset := eq_or_ne i .reset
  · rw [exec_reset_inv hs.phase hs.legal h]
    exact (linesReset_resetAll s).coherent
  by_cases hload : ∃ a bytes, i = .loadb a bytes
  · obtain ⟨a, bytes, rfl⟩ := hload
    exact coherent_loadb hs hco havoids h
  rcases (exec_lines_inv hs h).resolve_left hreset with ⟨hlines, hcfg, -⟩ | ⟨a, r, -, rfl, -⟩
  · have hbs := exec_bs h hreset fun a bytes hi => hload ⟨a, bytes, hi⟩
    intro x hx w hw hvalid
    have hline := lineAt_of_lines hlines x w
    rw [hcfg] at hx hw
    rw [hline] at hvalid
    rw [hbs]
    exact lineIsCopyOf_congr hcfg hline (hco x hx w hw hvalid)
  · exact coherent_filled hs hco a

/-- READB of a coherent block answers the present byte of the store. -/
theorem exec_readb_of_coherent {s : State} (hs : s.Shaped) (hco : s.Coherent) (a : Addr) :
    ∃ t r, exec (.readb a) s = .next t ∧ t.response = some r ∧ r.status = .ok ∧ r.data = s.bs.read a.toNat := by
  by_cases hres : Resident s a
  · obtain ⟨w, hw⟩ := exists_firstMatch hs hres
    have hcopy := hco _ (setIndex_lt s.cfg a) w hw.1 hw.2.1.1
    exact ⟨_, _, exec_readb_hit hs hw, rfl, rfl, byteAt_of_lineIsCopyOf hw hcopy⟩
  · exact ⟨_, _, exec_readb_miss hs hres, rfl, rfl, rfl⟩

/-- Settles O54: the lines are coherent at the start, where none is valid; a request that avoids resident blocks keeps them
so; and a hit then selects the byte a miss would read. -/
theorem cacheIsTransparent : Obligations.CacheIsTransparent :=
  ⟨fun _ hc => (linesReset_start hc).coherent, fun _ _ _ hs hco havoids h => State.Coherent.of_exec hs hco havoids h,
    fun _ a hs hco => exec_readb_of_coherent hs hco a⟩

end Sys2Proof.Machine
end
